-- ==== Sys2Proof/Word.lean ====
section
/-!
DEFINITION. The words of the machine: a byte (one base-256 digit), the command descriptor and the response word.
-/

namespace Sys2Proof

/-- One digit of a buffer: a byte (00_scope.md R9, BYTE_W; R12). -/
abbrev Byte := BitVec 8

/-- A command descriptor `CMD[223:0]` (30_encoding.md R70, R71). Bit 0 is the least significant bit (00_scope.md R11). -/
abbrev Descriptor := BitVec 224

/-- A response word `RSP[3:0] = STATUS, RESULT` (30_encoding.md R80). -/
abbrev RspWord := BitVec 4

end Sys2Proof
end

