-- ==== Sys2Proof/Config.lean ====
section
/-!
DEFINITION. What this hardware fixes: the parameters of 00_scope.md R9. N_ENGINES and ValidAddr are OPEN there: the
second is data of the state (Machine/State.lean, `holes`), the first needs nothing (notes/assumptions/7.md).
No free value is needed: what the spec leaves open it tells a model to refuse (93_implementation_defined.md).
-/

namespace Sys2Proof.Config

/-- RADIX: the value of one digit position (00_scope.md R9). -/
abbrev radix : Nat := 256

/-- How many byte addresses exist, 2^ADDR_W with ADDR_W = 32 (00_scope.md R9; 20_memory.md R40). -/
abbrev addrSpace : Nat := 2 ^ 32

/-- How many values a buffer-length field has, 2^LEN_W with LEN_W = 32 (00_scope.md R9). -/
abbrev lenSpace : Nat := 2 ^ 32

/-- How many values the scalar of INCREMENT has, 2^AMOUNT_W with AMOUNT_W = 63 (00_scope.md R9; 30_encoding.md R74). -/
abbrev amountSpace : Nat := 2 ^ 63

/-- CMD_W: bits of a command descriptor (00_scope.md R9). -/
abbrev cmdWidth : Nat := 224

end Sys2Proof.Config
end

