-- ==== Sys2Proof/Syntax.lean ====
section
/-!
DEFINITION. The six operations (00_scope.md R2), one constructor for each row of spec/opcode_table.json, over the one
operand form of a buffer (30_encoding.md R73). Operands are the natural numbers the fields are read as (R73, R74);
WellFormed.lean says which of them a descriptor can carry.
-/

namespace Sys2Proof

/-- A buffer operand: a byte address and a byte count, unscaled and unshifted (20_memory.md R42; 30_encoding.md R73). -/
structure Buffer where
  base : Nat
  len  : Nat
  deriving DecidableEq, Repr

/-- A command with its operands (30_encoding.md R72). `a` is the first buffer, the destination where there is one. -/
inductive Instr where
  /-- EQUALS (40_equals_iszero.md R100). -/
  | equals (a b : Buffer)
  /-- ISZERO (40_equals_iszero.md R104). -/
  | iszero (a : Buffer)
  /-- COMPARE (41_compare.md R110). -/
  | compare (a b : Buffer)
  /-- INCREMENT (42_increment.md R120). -/
  | increment (a : Buffer) (amount : Nat)
  /-- ADD (43_add_subtract.md R130). -/
  | add (a b : Buffer)
  /-- SUBTRACT (43_add_subtract.md R135). -/
  | subtract (a b : Buffer)
  deriving DecidableEq, Repr

end Sys2Proof
end

