-- ==== Sys2Proof/WellFormed.lean ====
section
/-!
DEFINITION. Which instructions a descriptor can carry: every operand fits its field (00_scope.md R9; 30_encoding.md R73,
R74). It is what an assembler checks (R90); range, length equality and overlap are run-time checks of the engine and are
no part of it.
-/

namespace Sys2Proof

/-- A base and a length fit their 32-bit fields (30_encoding.md R73, R90). -/
def Buffer.wellFormed (x : Buffer) : Bool :=
  decide (x.base < Config.addrSpace) && decide (x.len < Config.lenSpace)

/-- The scalar fits its 63-bit field (30_encoding.md R74, R90). -/
def amountWellFormed (amount : Nat) : Bool := decide (amount < Config.amountSpace)

/-- Every operand of the instruction fits its field (30_encoding.md R90). -/
def Instr.wellFormed : Instr → Bool
  | .equals a b => a.wellFormed && b.wellFormed
  | .iszero a => a.wellFormed
  | .compare a b => a.wellFormed && b.wellFormed
  | .increment a amount => a.wellFormed && amountWellFormed amount
  | .add a b => a.wellFormed && b.wellFormed
  | .subtract a b => a.wellFormed && b.wellFormed

end Sys2Proof
end

