-- ==== Sys2Proof/Decode.lean ====
section
/-!
DEFINITION. Decoding, a total function of the 224 bits of a descriptor that uses nothing else (30_encoding.md R85) and
rejects by name, and the encoder beside it. Both go through the eight fields of R71.
-/

namespace Sys2Proof

/-- The eight fields of format D (30_encoding.md R71). -/
structure Fields where
  opcode : BitVec 8
  rsv0   : BitVec 24
  aBase  : BitVec 32
  aLen   : BitVec 32
  bBase  : BitVec 32
  bLen   : BitVec 32
  amount : BitVec 63
  rsv1   : BitVec 1
  deriving DecidableEq, Repr

/-- The six rows of the opcode table (30_encoding.md R72). -/
inductive Opcode where
  | equals | iszero | compare | increment | add | subtract
  deriving DecidableEq, Repr

/-- Why a descriptor names no command (60_exceptions.md R174, cases 1 and 2). -/
inductive DecodeError where
  /-- OPCODE is not in 0x01 .. 0x06 (case 1). -/
  | illegalOpcode
  /-- RSV0 or RSV1 is not zero (case 2). -/
  | reservedNonZero
  /-- A field the operation does not use is not zero (case 2). -/
  | unusedNonZero
  deriving DecidableEq, Repr

/-- `CMD[hi:lo]` for each field (30_encoding.md R71). -/
def fieldsOf (d : Descriptor) : Fields where
  opcode := d.extractLsb' 0 8
  rsv0 := d.extractLsb' 8 24
  aBase := d.extractLsb' 32 32
  aLen := d.extractLsb' 64 32
  bBase := d.extractLsb' 96 32
  bLen := d.extractLsb' 128 32
  amount := d.extractLsb' 160 63
  rsv1 := d.extractLsb' 223 1

/-- The descriptor with these fields, the most significant first (30_encoding.md R71; 00_scope.md R11). -/
def descriptorOf (f : Fields) : Descriptor :=
  f.rsv1 ++ (f.amount ++ (f.bLen ++ (f.bBase ++ (f.aLen ++ (f.aBase ++ (f.rsv0 ++ f.opcode))))))

/-- The row a value of the OPCODE field selects, if any (30_encoding.md R72). -/
def opcodeOf (code : BitVec 8) : Option Opcode :=
  match code.toNat with
  | 0x01 => some .equals
  | 0x02 => some .iszero
  | 0x03 => some .compare
  | 0x04 => some .increment
  | 0x05 => some .add
  | 0x06 => some .subtract
  | _ => none

/-- The value of the OPCODE field of each row (30_encoding.md R72). -/
def opcodeValue : Opcode → BitVec 8
  | .equals => 0x01#8
  | .iszero => 0x02#8
  | .compare => 0x03#8
  | .increment => 0x04#8
  | .add => 0x05#8
  | .subtract => 0x06#8

/-- The fields the operation does not use are zero (30_encoding.md R75). -/
def unusedZero (op : Opcode) (f : Fields) : Bool :=
  match op with
  | .equals | .compare | .add | .subtract => f.amount == 0
  | .iszero => f.bBase == 0 && f.bLen == 0 && f.amount == 0
  | .increment => f.bBase == 0 && f.bLen == 0

/-- Buffer `a` of a command: its fields read as unsigned numbers (30_encoding.md R73). -/
def bufferA (f : Fields) : Buffer := ⟨f.aBase.toNat, f.aLen.toNat⟩

/-- Buffer `b` of a command (30_encoding.md R73). -/
def bufferB (f : Fields) : Buffer := ⟨f.bBase.toNat, f.bLen.toNat⟩

/-- The operands each operation uses (30_encoding.md R72, R73, R74). -/
def operandsOf (op : Opcode) (f : Fields) : Instr :=
  match op with
  | .equals => .equals (bufferA f) (bufferB f)
  | .iszero => .iszero (bufferA f)
  | .compare => .compare (bufferA f) (bufferB f)
  | .increment => .increment (bufferA f) f.amount.toNat
  | .add => .add (bufferA f) (bufferB f)
  | .subtract => .subtract (bufferA f) (bufferB f)

/-- The command eight fields name, or why they name none, in the order of 60_exceptions.md R176 checks 1 and 2. -/
def decodeFields (f : Fields) : Except DecodeError Instr :=
  match opcodeOf f.opcode with
  | none => .error .illegalOpcode
  | some op =>
    if f.rsv0 ≠ 0 ∨ f.rsv1 ≠ 0 then .error .reservedNonZero
    else if unusedZero op f then .ok (operandsOf op f)
    else .error .unusedNonZero

/-- Decoding (30_encoding.md R85, R86). -/
def decode (d : Descriptor) : Except DecodeError Instr := decodeFields (fieldsOf d)

/-- The fields of a two-buffer command, every other one zero (30_encoding.md R75). -/
def fieldsTwo (op : Opcode) (a b : Buffer) : Fields where
  opcode := opcodeValue op
  rsv0 := 0
  aBase := BitVec.ofNat 32 a.base
  aLen := BitVec.ofNat 32 a.len
  bBase := BitVec.ofNat 32 b.base
  bLen := BitVec.ofNat 32 b.len
  amount := 0
  rsv1 := 0

/-- The fields of a one-buffer command with a scalar, every other one zero (30_encoding.md R75). -/
def fieldsOne (op : Opcode) (a : Buffer) (amount : Nat) : Fields where
  opcode := opcodeValue op
  rsv0 := 0
  aBase := BitVec.ofNat 32 a.base
  aLen := BitVec.ofNat 32 a.len
  bBase := 0
  bLen := 0
  amount := BitVec.ofNat 63 amount
  rsv1 := 0

/-- The fields of an instruction (30_encoding.md R72, R75). -/
def fieldsOfInstr : Instr → Fields
  | .equals a b => fieldsTwo .equals a b
  | .iszero a => fieldsOne .iszero a 0
  | .compare a b => fieldsTwo .compare a b
  | .increment a amount => fieldsOne .increment a amount
  | .add a b => fieldsTwo .add a b
  | .subtract a b => fieldsTwo .subtract a b

/-- The one descriptor of a well-formed instruction (30_encoding.md R75, R90). On an operand that does not fit its
field it keeps the field's low bits (DESIGN CHOICE, notes/assumptions/12.md). -/
def encode (i : Instr) : Descriptor := descriptorOf (fieldsOfInstr i)

/-- The descriptor whose low `nbits` bits are those of `w` and whose other bits are zero, when those bits fit the one
command length there is (30_encoding.md R87). -/
def descriptorOfWord (nbits w : Nat) : Option Descriptor :=
  if w % 2 ^ nbits < 2 ^ Config.cmdWidth then some (BitVec.ofNat Config.cmdWidth (w % 2 ^ nbits)) else none

/-- The instruction the decoder reads from an instruction whose bits are `w` (30_encoding.md R85). -/
def decodeTableWord (nbits w : Nat) : Option Instr :=
  match descriptorOfWord nbits w with
  | none => none
  | some d =>
    match decode d with
    | .ok i => some i
    | .error _ => none

end Sys2Proof
end

