-- ==== Sys2Proof/Machine/State.lean ====
section
/-!
DEFINITION. What the machine holds (10_state.md R30): the buffer memory, the platform's ValidAddr, and, since the host's
step has no input and no output of its own, what stands at the command interface and what the response interface has
delivered (30_encoding.md R70). The engine itself owns no state (R20).
-/

namespace Sys2Proof.Machine

/-- The buffer memory (20_memory.md R40): the bytes with a known value, by address. Its canonical form is
`Memory.wf` (Machine/Ops.lean). -/
abbrev Memory := List Host.Cell

/-- A range of byte addresses. -/
structure Region where
  base : Nat
  size : Nat
  deriving DecidableEq, Repr

/-- One access another agent makes to buffer memory on its own (60_exceptions.md R186; 20_memory.md R52). -/
inductive Access where
  /-- The agent reads the byte at `addr`. -/
  | read (addr : BitVec 32)
  /-- The agent writes `value` to the byte at `addr`. -/
  | write (addr : BitVec 32) (value : Byte)
  deriving DecidableEq, Repr

/-- What the outside does next. -/
inductive Event where
  /-- The caller presents a command (30_encoding.md R70), and other agents make the accesses `during` before its
  response is delivered (20_memory.md R52). -/
  | present (cmd : Descriptor) (during : List Access)
  /-- The caller, or an agent it allows, reads or writes a byte between two commands (60_exceptions.md R186). -/
  | access (x : Access)
  /-- Reset, with no command in progress (70_reset_and_hazards.md R200). -/
  | reset
  /-- Reset while the command is in progress (70_reset_and_hazards.md R202). -/
  | resetDuring (cmd : Descriptor)
  deriving DecidableEq, Repr

/-- Why the machine stops with a fault. An error the engine itself reports is no fault: it is a response
(60_exceptions.md R178). -/
inductive Fault where
  /-- An operation reads a byte nobody has written; raised by every operation that reads a buffer
  (70_reset_and_hazards.md R206; 93_implementation_defined.md U7). Safe: the hardware goes on with any value. -/
  | unwrittenByte
  deriving DecidableEq, Repr

/-- Why an instruction or an event has no meaning. -/
inductive Refusal where
  /-- No meaning yet; raised by an arm of exec. No arm raises it. Safe. -/
  | notModelled (mnemonic : String)
  /-- A byte outside ValidAddr is named or accessed; raised by every operation, by an agent's access and by a reset in
  mid-command (20_memory.md R44; 93_implementation_defined.md U6). Safe: the engine defines nothing there. -/
  | outsideValidAddr
  /-- Another agent broke the exclusive-access obligation while a command ran; raised when a command is presented
  (20_memory.md R53; 93_implementation_defined.md U1). Safe: such a run is outside every claim. -/
  | exclusiveAccessBroken
  deriving DecidableEq, Repr

/-- The machine. -/
structure State where
  /-- The buffer memory (10_state.md R30). -/
  mem : Memory
  /-- The addresses below 2^32 that are NOT in ValidAddr (20_memory.md R44); the platform's, changed by no step. -/
  holes : List Region
  /-- What the outside does next, the first first (the model's own: notes/assumptions/1.md). -/
  inputs : List Event
  /-- The responses delivered so far, the oldest first (the model's own: notes/assumptions/2.md). -/
  responses : List RspWord
  deriving DecidableEq, Repr

/-- After reset (10_state.md R32; 70_reset_and_hazards.md R200): no byte of memory has a known value, the engine is idle,
no response is outstanding. That every address is plain memory is a DESIGN CHOICE (notes/assumptions/3.md). -/
def State.reset : State where
  mem := []
  holes := []
  inputs := []
  responses := []

end Sys2Proof.Machine
end

