-- ==== Sys2Proof/Machine/Digits.lean ====
section
/-!
DEFINITION. Buffers as little-endian numbers (00_scope.md R12) and the digit algorithms of the six operations, index 0
first (40_equals_iszero.md to 43_add_subtract.md). The carry, the borrow and the accumulator of 10_state.md R26 are their
arguments and nothing else.
-/

namespace Sys2Proof.Machine

/-- `val(X)`: the digits, the least significant first, as a number (00_scope.md R12). -/
def val : List Byte → Nat
  | [] => 0
  | x :: xs => x.toNat + Config.radix * val xs

/-- `bytes_n(v)`: the `n` low digits of `v` (00_scope.md R12). -/
def bytesOf : Nat → Nat → List Byte
  | 0, _ => []
  | n + 1, v => BitVec.ofNat 8 (v % Config.radix) :: bytesOf n (v / Config.radix)

/-- The loop of EQUALS: the accumulated difference of the digits, with no exit on a difference (40_equals_iszero.md
R100). -/
def differenceOf : Byte → List Byte → List Byte → Byte
  | acc, x :: xs, y :: ys => differenceOf (acc ||| (x ^^^ y)) xs ys
  | acc, _, _ => acc

/-- EQUALS on two buffers of equal length (40_equals_iszero.md R100). -/
def digitsEqual (xs ys : List Byte) : Bool := differenceOf 0 xs ys == 0

/-- The loop of ISZERO: the digits or-ed together, with no exit on a non-zero one (40_equals_iszero.md R104). -/
def unionOf : Byte → List Byte → Byte
  | acc, x :: xs => unionOf (acc ||| x) xs
  | acc, [] => acc

/-- ISZERO (40_equals_iszero.md R104). -/
def digitsZero (xs : List Byte) : Bool := unionOf 0 xs == 0

/-- The scan of COMPARE over digits given from the top index down: the first difference decides, bytes as unsigned
numbers (41_compare.md R110). -/
def scanDown : List Byte → List Byte → Ordering
  | x :: xs, y :: ys =>
    if x.toNat < y.toNat then .lt
    else if x.toNat > y.toNat then .gt
    else scanDown xs ys
  | _, _ => .eq

/-- COMPARE on two buffers of equal length (41_compare.md R110). -/
def digitsCompare (xs ys : List Byte) : Ordering := scanDown xs.reverse ys.reverse

/-- The loop of INCREMENT, with the carry entering the first digit (42_increment.md R120). -/
def incrementDigits : Nat → List Byte → List Byte
  | _, [] => []
  | carry, x :: xs =>
    let s := x.toNat + carry
    BitVec.ofNat 8 (s % Config.radix) :: incrementDigits (s / Config.radix) xs

/-- The loop of ADD, with the carry entering the first digit (43_add_subtract.md R130). -/
def addDigits : Nat → List Byte → List Byte → List Byte
  | carry, x :: xs, y :: ys =>
    let s := x.toNat + y.toNat + carry
    BitVec.ofNat 8 (s % Config.radix) :: addDigits (s / Config.radix) xs ys
  | _, _, _ => []

/-- The loop of SUBTRACT, with the borrow leaving the first digit (43_add_subtract.md R135). -/
def subtractDigits : Nat → List Byte → List Byte → List Byte
  | borrow, x :: xs, y :: ys =>
    let d : Int := (x.toNat : Int) - (y.toNat : Int) - (borrow : Int)
    BitVec.ofInt 8 d :: subtractDigits (if d < 0 then 1 else 0) xs ys
  | _, _, _ => []

end Sys2Proof.Machine
end

