-- ==== Sys2Proof/Machine/Flags.lean ====
section
/-!
DEFINITION. The engine has no flags, no carry-out and no status register (10_state.md R23, R24). What an operation
reports stands in its response word: STATUS and RESULT (30_encoding.md R80 to R83).
-/

namespace Sys2Proof.Machine

/-- The three ways a command ends (60_exceptions.md R170; 30_encoding.md R81). -/
inductive Status where
  /-- The operation completed. -/
  | ok
  /-- COMPARE, ADD or SUBTRACT with buffers of different lengths (60_exceptions.md R171). -/
  | lengthMismatch
  /-- The descriptor names no legal command (60_exceptions.md R174). -/
  | badCommand
  deriving DecidableEq, Repr

/-- STATUS codes (30_encoding.md R81). -/
def statusCode : Status → BitVec 2
  | .ok => 0b00#2
  | .lengthMismatch => 0b01#2
  | .badCommand => 0b10#2

/-- RESULT of EQUALS and ISZERO (30_encoding.md R82). -/
def boolResult (b : Bool) : BitVec 2 := if b then 0b01#2 else 0b00#2

/-- RESULT of COMPARE: -1, 0, +1 in two bits (30_encoding.md R82). -/
def orderResult : Ordering → BitVec 2
  | .lt => 0b11#2
  | .eq => 0b00#2
  | .gt => 0b01#2

/-- RESULT of INCREMENT, ADD and SUBTRACT, and of every command that fails (30_encoding.md R82). -/
def voidResult : BitVec 2 := 0b00#2

/-- The response word, STATUS above RESULT (30_encoding.md R80). -/
def rspWord (st : Status) (result : BitVec 2) : RspWord := statusCode st ++ result

/-- STATUS of a response word, `RSP[3:2]` (30_encoding.md R80). -/
def rspStatus (r : RspWord) : BitVec 2 := r.extractLsb' 2 2

/-- RESULT of a response word, `RSP[1:0]` (30_encoding.md R80). -/
def rspResult (r : RspWord) : BitVec 2 := r.extractLsb' 0 2

/-- What the RESULT of a COMPARE stands for: `sext_2(RESULT)` (30_encoding.md R82; 00_scope.md R13). -/
def comparisonOf (r : RspWord) : Int := (rspResult r).toInt

end Sys2Proof.Machine
end

