-- ==== Sys2Proof/Machine/Ops.lean ====
section
/-!
DEFINITION. The named operations over memory and over the two interfaces: reading and writing bytes (00_scope.md R13),
ValidAddr (20_memory.md R44), delivering a response, and ending a command with an error, the one "exception" there is
(60_exceptions.md R178). There is no return from one (R179).
-/

namespace Sys2Proof.Machine

/-- What one step answers. -/
abbrev Answer := Host.Outcome State Fault Refusal

/-- What an address that is not listed reads as: no value, so that an operation that reads it faults
(70_reset_and_hazards.md R206; notes/assumptions/5.md). -/
def unlistedByte : Option Byte := none

/-- `MemRead(addr, 1)` (00_scope.md R13): the byte at the address, if one was written. -/
def Memory.read : Memory → Nat → Option Byte
  | [], _ => unlistedByte
  | (k, v) :: m, addr => if k = addr then some v else Memory.read m addr

/-- `MemWrite(addr, 1, v)` (00_scope.md R13), into its place in the order of addresses. -/
def Memory.write : Memory → Nat → Byte → Memory
  | [], addr, b => [(addr, b)]
  | (k, v) :: m, addr, b =>
    if k = addr then (addr, b) :: m
    else if addr < k then (addr, b) :: (k, v) :: m
    else (k, v) :: Memory.write m addr b

/-- The bytes `X[0] .. X[n-1]` of a buffer at `base` (20_memory.md R42), if every one was written. -/
def Memory.readRange (m : Memory) : Nat → Nat → Option (List Byte)
  | _, 0 => some []
  | base, n + 1 =>
    match m.read base with
    | none => none
    | some b =>
      match Memory.readRange m (base + 1) n with
      | none => none
      | some bs => some (b :: bs)

/-- Writes the bytes at `base`, `base + 1`, and so on (20_memory.md R42). -/
def Memory.writeRange : Memory → Nat → List Byte → Memory
  | m, _, [] => m
  | m, base, b :: bs => Memory.writeRange (m.write base b) (base + 1) bs

/-- Makes the bytes from `base` on unwritten: what a reset in mid-command leaves of a destination
(70_reset_and_hazards.md R202; notes/assumptions/9.md). -/
def Memory.forgetRange (m : Memory) (base len : Nat) : Memory :=
  m.filter fun c => decide (c.1 < base) || decide (base + len ≤ c.1)

/-- The canonical form: addresses strictly rising, each one an address of the space (20_memory.md R40). An unlisted
address reads as no value, so no entry can be equal to that. -/
abbrev Memory.wf (m : Memory) : Prop :=
  m.Pairwise (fun c d => c.1 < d.1) ∧ ∀ c ∈ m, c.1 < Config.addrSpace

/-- The address lies in the region. -/
def Region.contains (r : Region) (addr : Nat) : Bool :=
  decide (r.base ≤ addr) && decide (addr < r.base + r.size)

/-- The byte at the address is plain buffer memory: `addr ∈ ValidAddr` (20_memory.md R44). -/
def State.validAddr (s : State) (addr : Nat) : Bool :=
  decide (addr < Config.addrSpace) && s.holes.all fun r => !r.contains addr

/-- The range shares no byte with the region. -/
def Region.apart (r : Region) (base len : Nat) : Bool :=
  decide (len = 0) || decide (r.size = 0) || decide (base + len ≤ r.base) || decide (r.base + r.size ≤ base)

/-- Every byte of the range is in ValidAddr (20_memory.md R44); a range of length 0 has no byte (R43). -/
def State.validRange (s : State) (base len : Nat) : Bool :=
  decide (len = 0) || (decide (base + len ≤ Config.addrSpace) && s.holes.all fun r => r.apart base len)

/-- Delivers a response (30_encoding.md R70, R80). Nothing of it stays in the engine (10_state.md R28). -/
def State.deliver (s : State) (r : RspWord) : State := { s with responses := s.responses ++ [r] }

/-- The machine with this buffer memory. -/
def State.withMem (s : State) (m : Memory) : State := { s with mem := m }

/-- `return r` (00_scope.md R13): the command ends with STATUS OK. -/
def complete (result : BitVec 2) (s : State) : Answer := .next (s.deliver (rspWord .ok result))

/-- `raise` (00_scope.md R13), the engine's only exception entry (60_exceptions.md R178): the command ends at once with
the status, RESULT 0 and no memory write (R177); nothing is saved, masked or transferred. -/
def raise (st : Status) (s : State) : Answer := .next (s.deliver (rspWord st voidResult))

/-- Goes on from an answer's next state; a stop stays. -/
def andThen (o : Answer) (k : State → Answer) : Answer :=
  match o with
  | .next s => k s
  | .fault f => .fault f
  | .refused r => .refused r

/-- Puts an event before every other one at the command interface. -/
def State.placeInput (s : State) (e : Event) : State := { s with inputs := e :: s.inputs }

/-- Places the command whose bits are `w` before every other event, with no other agent at work. Bits above the one
command length are dropped. -/
def State.placeWord (s : State) (nbits w : Nat) : State :=
  s.placeInput (.present (BitVec.ofNat Config.cmdWidth (w % 2 ^ nbits)) [])

end Sys2Proof.Machine
end

