-- ==== Sys2Proof/Machine/Operands.lean ====
section
/-!
DEFINITION. The one operand form, a buffer, and the scalar (30_encoding.md R73, R74): which bytes a buffer occupies, the
run-time checks 3 to 6 of 60_exceptions.md R176, ValidAddr, and the reading of operands.
-/

namespace Sys2Proof.Machine

/-- The address is that of a byte of the buffer (20_memory.md R42). -/
def inBuffer (x : Buffer) (addr : Nat) : Bool :=
  decide (x.base ≤ addr) && decide (addr < x.base + x.len)

/-- The buffer does not run past the top of memory; the sum is of natural numbers (20_memory.md R43). -/
def inRange (x : Buffer) : Bool := decide (x.base + x.len ≤ Config.addrSpace)

/-- `|x - y|` of natural numbers. -/
def absDiff (x y : Nat) : Nat := (x - y) + (y - x)

/-- The two ranges share a byte and are not the same range, for buffers of equal length (20_memory.md R61). -/
def partialOverlap (a b : Buffer) : Bool :=
  decide (0 < absDiff a.base b.base) && decide (absDiff a.base b.base < a.len)

/-- Checks 3 and 4 of 60_exceptions.md R176: BadCommand for a buffer out of range (R174, cases 3 and 4). -/
def checkRange (x : Buffer) : Option Status := if inRange x then none else some .badCommand

/-- Check 5 of 60_exceptions.md R176 for COMPARE, ADD and SUBTRACT: the lengths alone decide (R171). -/
def checkLengths (a b : Buffer) : Option Status := if a.len = b.len then none else some .lengthMismatch

/-- Check 6 of 60_exceptions.md R176 for ADD and SUBTRACT (R174, case 5). -/
def checkOverlap (a b : Buffer) : Option Status := if partialOverlap a b then some .badCommand else none

/-- The first check that fails decides (60_exceptions.md R176); with none failing the operation runs. -/
def checked : List (Option Status) → State → (State → Answer) → Answer
  | [], s, run => run s
  | some st :: _, s, _ => raise st s
  | none :: rest, s, run => checked rest s run

/-- Every byte of every one of the buffers is in ValidAddr (20_memory.md R44). -/
def State.validBuffers (s : State) (xs : List Buffer) : Bool := xs.all fun x => s.validRange x.base x.len

/-- Checks 3 and 4 of 60_exceptions.md R176 for the buffers a command names, which need no memory access (R174), and then
ValidAddr: a command that names a byte outside it is refused whatever the later checks would say (20_memory.md R44;
93_implementation_defined.md U6; notes/assumptions/4.md). -/
def located (xs : List Buffer) (s : State) (run : State → Answer) : Answer :=
  checked (xs.map checkRange) s fun s =>
    if s.validBuffers xs then run s else .refused .outsideValidAddr

/-- Reads every byte of a buffer (20_memory.md R63; notes/assumptions/6.md). It faults where one was never written
(70_reset_and_hazards.md R206). -/
def withBuffer (x : Buffer) (s : State) (use : List Byte → Answer) : Answer :=
  match s.mem.readRange x.base x.len with
  | none => .fault .unwrittenByte
  | some xs => use xs

/-- Reads the bytes of two buffers as they stand when the command starts (20_memory.md R60, R61). -/
def withBuffers (a b : Buffer) (s : State) (use : List Byte → List Byte → Answer) : Answer :=
  withBuffer a s fun xs => withBuffer b s fun ys => use xs ys

/-- Writes the digits into the buffer in place (20_memory.md R41, R42). -/
def State.store (s : State) (x : Buffer) (digits : List Byte) : State :=
  s.withMem (s.mem.writeRange x.base digits)

/-- The buffers a command names (20_memory.md R41, R42). -/
def buffersOf : Instr → List Buffer
  | .equals a b => [a, b]
  | .iszero a => [a]
  | .compare a b => [a, b]
  | .increment a _ => [a]
  | .add a b => [a, b]
  | .subtract a b => [a, b]

/-- The buffers a command writes: `a` of INCREMENT, ADD and SUBTRACT, and no other (20_memory.md R41). -/
def destinationsOf : Instr → List Buffer
  | .equals _ _ => []
  | .iszero _ => []
  | .compare _ _ => []
  | .increment a _ => [a]
  | .add a _ => [a]
  | .subtract a _ => [a]

end Sys2Proof.Machine
end

