-- ==== Sys2Proof/Machine/Adder.lean ====
section
/-!
DEFINITION. ADD and SUBTRACT (43_add_subtract.md).
-/

namespace Sys2Proof.Machine

/-- ADD (43_add_subtract.md R130): carry-in 0, the final carry is discarded. -/
def execAdd (a b : Buffer) (s : State) : Answer :=
  located [a, b] s fun s =>
    checked [checkLengths a b, checkOverlap a b] s fun s =>
      withBuffers a b s fun xs ys => complete voidResult (s.store a (addDigits 0 xs ys))

/-- SUBTRACT (43_add_subtract.md R135): borrow-in 0, the final borrow is discarded. -/
def execSubtract (a b : Buffer) (s : State) : Answer :=
  located [a, b] s fun s =>
    checked [checkLengths a b, checkOverlap a b] s fun s =>
      withBuffers a b s fun xs ys => complete voidResult (s.store a (subtractDigits 0 xs ys))

end Sys2Proof.Machine
end

