-- ==== Sys2Proof/Machine/Comparator.lean ====
section
/-!
DEFINITION. COMPARE (41_compare.md).
-/

namespace Sys2Proof.Machine

/-- COMPARE (41_compare.md R110). -/
def execCompare (a b : Buffer) (s : State) : Answer :=
  located [a, b] s fun s =>
    checked [checkLengths a b] s fun s =>
      withBuffers a b s fun xs ys => complete (orderResult (digitsCompare xs ys)) s

end Sys2Proof.Machine
end

