-- ==== Sys2Proof/Machine/Incrementer.lean ====
section
/-!
DEFINITION. INCREMENT (42_increment.md).
-/

namespace Sys2Proof.Machine

/-- INCREMENT (42_increment.md R120): the whole scalar is added (R121), an amount of 0 adds nothing (R122), and what is
left in the carry is discarded (R123). -/
def execIncrement (a : Buffer) (amount : Nat) (s : State) : Answer :=
  located [a] s fun s =>
    withBuffer a s fun xs => complete voidResult (s.store a (incrementDigits amount xs))

end Sys2Proof.Machine
end

