-- ==== Sys2Proof/Machine/Predicates.lean ====
section
/-!
DEFINITION. EQUALS and ISZERO (40_equals_iszero.md).
-/

namespace Sys2Proof.Machine

/-- EQUALS (40_equals_iszero.md R100): differing lengths are a normal false (R101) and read no byte (60_exceptions.md
R176, check 5). -/
def execEquals (a b : Buffer) (s : State) : Answer :=
  located [a, b] s fun s =>
    if a.len = b.len then
      withBuffers a b s fun xs ys => complete (boolResult (digitsEqual xs ys)) s
    else complete (boolResult false) s

/-- ISZERO (40_equals_iszero.md R104). -/
def execIszero (a : Buffer) (s : State) : Answer :=
  located [a] s fun s =>
    withBuffer a s fun xs => complete (boolResult (digitsZero xs)) s

end Sys2Proof.Machine
end

