-- ==== Sys2Proof/Machine/Dispatch.lean ====
section
/-!
DEFINITION. One arm for each operation (30_encoding.md R72).
-/

namespace Sys2Proof.Machine

def exec (i : Instr) (s : State) : Host.Outcome State Fault Refusal :=
  match i with
  | .equals a b => Sys2Proof.Machine.execEquals a b s
  | .iszero a => Sys2Proof.Machine.execIszero a s
  | .compare a b => Sys2Proof.Machine.execCompare a b s
  | .increment a amount => Sys2Proof.Machine.execIncrement a amount s
  | .add a b => Sys2Proof.Machine.execAdd a b s
  | .subtract a b => Sys2Proof.Machine.execSubtract a b s

end Sys2Proof.Machine
end

