-- ==== Sys2Proof/Machine/Interface.lean ====
section
/-!
DEFINITION. What happens at the engine's interfaces (30_encoding.md R70): a command is presented, other agents access
buffer memory (20_memory.md R52; 60_exceptions.md R186), reset comes (70_reset_and_hazards.md R200 to R203).
-/

namespace Sys2Proof.Machine

/-- One access of another agent. A read changes nothing; a write sets the byte. It is refused outside ValidAddr, where
what it does is the platform's (20_memory.md R44; notes/assumptions/15.md). -/
def applyAccess (x : Access) (s : State) : Answer :=
  match x with
  | .read addr => if s.validAddr addr.toNat then .next s else .refused .outsideValidAddr
  | .write addr b =>
    if s.validAddr addr.toNat then .next (s.withMem (s.mem.write addr.toNat b)) else .refused .outsideValidAddr

/-- The accesses one after another. -/
def applyAccesses : List Access → State → Answer
  | [], s => .next s
  | x :: xs, s => andThen (applyAccess x s) (applyAccesses xs)

/-- The access keeps the exclusive-access obligation towards the command (20_memory.md R52): (a) no write to a byte of a
buffer it names, (b) no access at all to a byte of a buffer it writes. -/
def accessAllowed (i : Instr) (x : Access) : Bool :=
  match x with
  | .read addr => (destinationsOf i).all fun b => !inBuffer b addr.toNat
  | .write addr _ => (buffersOf i).all fun b => !inBuffer b addr.toNat

/-- Every access made while the command runs keeps the obligation of 20_memory.md R52. -/
def exclusive (i : Instr) (during : List Access) : Bool := during.all (accessAllowed i)

/-- A command is presented. An illegal descriptor is answered BAD_COMMAND without a memory access (30_encoding.md R86).
A legal one runs as one atomic transformation (20_memory.md R50), with what other agents do meanwhile applied after it
(R52, R54; notes/assumptions/8.md), unless they break their obligation (R53). -/
def presentCommand (cmd : Descriptor) (during : List Access) (s : State) : Answer :=
  match decode cmd with
  | .error _ => andThen (raise .badCommand s) (applyAccesses during)
  | .ok i =>
    if exclusive i during then andThen (exec i s) (applyAccesses during)
    else .refused .exclusiveAccessBroken

/-- Reset in mid-command (70_reset_and_hazards.md R202): no response; the destination of an INCREMENT, ADD or SUBTRACT
counts as unwritten; every other byte is as it was (notes/assumptions/9.md). A command that names a byte outside
ValidAddr is refused (20_memory.md R44), unless it fails check 3 or 4 and so makes no memory access (60_exceptions.md
R174). -/
def abandonCommand (cmd : Descriptor) (s : State) : Answer :=
  match decode cmd with
  | .error _ => .next s
  | .ok i =>
    if !(buffersOf i).all inRange || s.validBuffers (buffersOf i) then
      .next (s.withMem ((destinationsOf i).foldl (fun m x => m.forgetRange x.base x.len) s.mem))
    else .refused .outsideValidAddr

/-- One event. Reset of the idle engine touches nothing (70_reset_and_hazards.md R200, R201). -/
def handleEvent (e : Event) (s : State) : Answer :=
  match e with
  | .present cmd during => presentCommand cmd during s
  | .access x => applyAccess x s
  | .reset => .next s
  | .resetDuring cmd => abandonCommand cmd s

/-- One step: the first event is taken off the inputs and handled; with none the engine is idle and nothing changes
(60_exceptions.md R179, R187). -/
def stepInputs (s : State) : Answer :=
  match s.inputs with
  | [] => .next s
  | e :: rest => handleEvent e { s with inputs := rest }

end Sys2Proof.Machine
end

