-- ==== Sys2Proof/Machine/Step.lean ====
section
/-!
DEFINITION. The step of the machine (10_state.md R30), and where the host places the instruction it asks about.
-/

namespace Sys2Proof.Machine

/-- One step (10_state.md R30; 20_memory.md R50, R55). -/
def step (s : State) : Host.Outcome State Fault Refusal := stepInputs s

/-- The machine with the instruction whose bits are `w` as the next command presented (30_encoding.md R70). -/
def State.withFetchWord (s : State) (nbits w : Nat) : State := s.placeWord nbits w

end Sys2Proof.Machine
end

