-- ==== Sys2Proof/Machine/Assembler.lean ====
section
/-!
DEFINITION. The assembler text form (30_encoding.md R90) and its one pseudo-instruction (R91): a line as a list of
characters, read into an instruction or refused.
-/

namespace Sys2Proof.Machine

/-- An operand as written (30_encoding.md R90): `base:len`, or `#amount`. -/
inductive TextOperand where
  | buffer (base len : Nat)
  | scalar (amount : Nat)
  deriving DecidableEq, Repr

/-- A space between the parts of a line (DESIGN CHOICE, notes/assumptions/11.md: a space or a tab). -/
def isSpace (c : Char) : Bool := c == ' ' || c == '\t'

/-- The line up to its comment, which starts at a `;` and runs to the end (30_encoding.md R90). -/
def stripComment (line : List Char) : List Char := line.takeWhile fun c => c != ';'

/-- The text without the spaces around it. -/
def trimText (text : List Char) : List Char :=
  (((text.dropWhile isSpace).reverse).dropWhile isSpace).reverse

/-- The parts of a text between the separators. -/
def splitText (sep : Char) : List Char → List (List Char)
  | [] => [[]]
  | c :: cs =>
    if c == sep then [] :: splitText sep cs
    else
      match splitText sep cs with
      | [] => [[c]]
      | part :: parts => (c :: part) :: parts

/-- The value of a decimal digit. -/
def decimalDigit (c : Char) : Option Nat :=
  if 48 ≤ c.toNat ∧ c.toNat ≤ 57 then some (c.toNat - 48) else none

/-- The value of a hexadecimal digit, of either case (notes/assumptions/11.md). -/
def hexDigit (c : Char) : Option Nat :=
  if 65 ≤ c.toNat ∧ c.toNat ≤ 70 then some (c.toNat - 55)
  else if 97 ≤ c.toNat ∧ c.toNat ≤ 102 then some (c.toNat - 87)
  else decimalDigit c

/-- Digits in a base, the most significant first, on from the value read so far. -/
def readDigits (base : Nat) (digit : Char → Option Nat) : Nat → List Char → Option Nat
  | acc, [] => some acc
  | acc, c :: cs =>
    match digit c with
    | none => none
    | some d => readDigits base digit (acc * base + d) cs

/-- A number, decimal or hexadecimal with the prefix `0x` (30_encoding.md R90). A sign is no digit: a negative number is
refused (R90). -/
def readNumber (text : List Char) : Option Nat :=
  match text with
  | [] => none
  | '0' :: 'x' :: [] => none
  | '0' :: 'x' :: digits => readDigits 16 hexDigit 0 digits
  | digits => readDigits 10 decimalDigit 0 digits

/-- One operand (30_encoding.md R90). -/
def readOperand (text : List Char) : Option TextOperand :=
  match trimText text with
  | '#' :: number => (readNumber number).map .scalar
  | other =>
    match splitText ':' other with
    | [base, len] =>
      match readNumber base, readNumber len with
      | some b, some l => some (.buffer b l)
      | _, _ => none
    | _ => none

/-- All operands of a line, or none where one cannot be read. -/
def readOperands : List (List Char) → Option (List TextOperand)
  | [] => some []
  | text :: rest =>
    match readOperand text, readOperands rest with
    | some o, some os => some (o :: os)
    | _, _ => none

/-- The row whose mnemonic the text is, in capitals (30_encoding.md R72, R90). -/
def mnemonicOf (text : List Char) : Option Opcode :=
  if text = ['E', 'Q', 'U', 'A', 'L', 'S'] then some .equals
  else if text = ['I', 'S', 'Z', 'E', 'R', 'O'] then some .iszero
  else if text = ['C', 'O', 'M', 'P', 'A', 'R', 'E'] then some .compare
  else if text = ['I', 'N', 'C', 'R', 'E', 'M', 'E', 'N', 'T'] then some .increment
  else if text = ['A', 'D', 'D'] then some .add
  else if text = ['S', 'U', 'B', 'T', 'R', 'A', 'C', 'T'] then some .subtract
  else none

/-- The forms of 30_encoding.md R90, and INCREMENT with the scalar omitted, which is the form with `#1` (R91). There is
no other form. -/
def instrOfText (op : Opcode) (operands : List TextOperand) : Option Instr :=
  match op, operands with
  | .equals, [.buffer ab al, .buffer bb bl] => some (.equals ⟨ab, al⟩ ⟨bb, bl⟩)
  | .iszero, [.buffer ab al] => some (.iszero ⟨ab, al⟩)
  | .compare, [.buffer ab al, .buffer bb bl] => some (.compare ⟨ab, al⟩ ⟨bb, bl⟩)
  | .increment, [.buffer ab al] => some (.increment ⟨ab, al⟩ 1)
  | .increment, [.buffer ab al, .scalar amount] => some (.increment ⟨ab, al⟩ amount)
  | .add, [.buffer ab al, .buffer bb bl] => some (.add ⟨ab, al⟩ ⟨bb, bl⟩)
  | .subtract, [.buffer ab al, .buffer bb bl] => some (.subtract ⟨ab, al⟩ ⟨bb, bl⟩)
  | _, _ => none

/-- The instruction a form names, refused where a number does not fit its field; range, length equality and overlap are
not checked (30_encoding.md R90). -/
def assembleForm (op : Opcode) (operands : List TextOperand) : Option Instr :=
  match instrOfText op operands with
  | none => none
  | some i => if i.wellFormed then some i else none

/-- One line of text (30_encoding.md R90): the mnemonic, a space, the operands between commas. -/
def assembleLine (line : List Char) : Option Instr :=
  let text := trimText (stripComment line)
  let mnemonic := text.takeWhile fun c => !isSpace c
  match mnemonicOf mnemonic, readOperands (splitText ',' (text.drop mnemonic.length)) with
  | some op, some operands => assembleForm op operands
  | _, _ => none

end Sys2Proof.Machine
end

