-- ==== Sys2Proof/Safety.lean ====
section
/-!
DEFINITION. The terms statements use: what the caller owes a command (70_reset_and_hazards.md R206; 20_memory.md R43, R44),
and what holds of every state a run can reach.
-/

namespace Sys2Proof.Machine

/-- The buffer is a legal, in-range operand (20_memory.md R43) and lies in ValidAddr (R44). -/
abbrev Placed (s : State) (x : Buffer) : Prop := inRange x = true ∧ s.validRange x.base x.len = true

/-- The caller has kept its duties for this buffer, and it holds these digits: it is in range (20_memory.md R43), in
ValidAddr (R44), and every byte was written (70_reset_and_hazards.md R206). -/
abbrev Holds (s : State) (x : Buffer) (digits : List Byte) : Prop :=
  inRange x = true ∧ s.validRange x.base x.len = true ∧ s.mem.readRange x.base x.len = some digits

/-- The caller has kept its duties for every buffer the command names. -/
abbrev Ready (s : State) (i : Instr) : Prop :=
  ∀ x ∈ buffersOf i, inRange x = true ∧ s.validRange x.base x.len = true ∧
    (s.mem.readRange x.base x.len).isSome = true

/-- The only response words ever produced (30_encoding.md R82). -/
def legalResponses : List RspWord := [0b0000#4, 0b0001#4, 0b0011#4, 0b0100#4, 0b1000#4]

/-- What every reachable state satisfies: memory in its canonical form, every byte with a value a byte of ValidAddr
(20_memory.md R44), every response one of the five words (30_encoding.md R82, R83). -/
abbrev State.Inv (s : State) : Prop :=
  s.mem.wf ∧ (∀ c ∈ s.mem, s.validAddr c.1 = true) ∧ ∀ r ∈ s.responses, r ∈ legalResponses

/-- Two commands keep the exclusive-access obligation towards each other (20_memory.md R52): no byte of a buffer one
writes is a byte of a buffer the other names. -/
abbrev Compatible (i j : Instr) : Prop :=
  (∀ x ∈ destinationsOf i, ∀ y ∈ buffersOf j, ∀ addr, ¬(inBuffer x addr = true ∧ inBuffer y addr = true)) ∧
  (∀ x ∈ destinationsOf j, ∀ y ∈ buffersOf i, ∀ addr, ¬(inBuffer x addr = true ∧ inBuffer y addr = true))

/-- Every byte outside the buffer reads as before. -/
abbrev SameOutside (x : Buffer) (s t : State) : Prop :=
  ∀ addr, inBuffer x addr = false → t.mem.read addr = s.mem.read addr

/-- One response was delivered, and neither the platform nor what the outside does next has changed. -/
abbrev Answered (s t : State) (r : RspWord) : Prop :=
  t.responses = s.responses ++ [r] ∧ t.inputs = s.inputs ∧ t.holes = s.holes

/-- The same command several times, each after the response of the one before (20_memory.md R55). -/
def execTimes (i : Instr) : Nat → State → Answer
  | 0, s => .next s
  | k + 1, s => andThen (exec i s) (execTimes i k)

/-- `CMD[lo + width - 1 : lo]` as a number (00_scope.md R11). -/
def cmdField (cmd : Descriptor) (lo width : Nat) : Nat := cmd.toNat / 2 ^ lo % 2 ^ width

/-- OPCODE names one of the four operations with two buffers (30_encoding.md R72). -/
def namesTwoBuffers (cmd : Descriptor) : Bool :=
  cmdField cmd 0 8 = 1 ∨ cmdField cmd 0 8 = 3 ∨ cmdField cmd 0 8 = 5 ∨ cmdField cmd 0 8 = 6

/-- One of the checks 1 to 4 of 60_exceptions.md R176 fails, in their order, written from the bits of the descriptor
alone. These are answered with no memory access at all (R174). -/
def malformed (cmd : Descriptor) : Bool :=
  let opcode := cmdField cmd 0 8
  if opcode = 0 ∨ 6 < opcode then true
  else if cmdField cmd 8 24 ≠ 0 ∨ cmdField cmd 223 1 ≠ 0 ∨ (opcode ≠ 4 ∧ cmdField cmd 160 63 ≠ 0) ∨
      (namesTwoBuffers cmd = false ∧ (cmdField cmd 96 32 ≠ 0 ∨ cmdField cmd 128 32 ≠ 0)) then true
  else if 2 ^ 32 < cmdField cmd 32 32 + cmdField cmd 64 32 then true
  else namesTwoBuffers cmd && decide (2 ^ 32 < cmdField cmd 96 32 + cmdField cmd 128 32)

/-- Every byte of every buffer the descriptor names lies in ValidAddr (20_memory.md R44). -/
def namesValidBytes (s : State) (cmd : Descriptor) : Bool :=
  s.validRange (cmdField cmd 32 32) (cmdField cmd 64 32) &&
    (!namesTwoBuffers cmd || s.validRange (cmdField cmd 96 32) (cmdField cmd 128 32))

/-- The response by which check 5 or 6 of 60_exceptions.md R176 ends a command that passed checks 1 to 4, written from the
bits of the descriptor alone; none where both pass. -/
def mismatchOf (cmd : Descriptor) : Option RspWord :=
  let opcode := cmdField cmd 0 8
  let aBase := cmdField cmd 32 32
  let aLen := cmdField cmd 64 32
  let bBase := cmdField cmd 96 32
  let bLen := cmdField cmd 128 32
  if (opcode = 3 ∨ opcode = 5 ∨ opcode = 6) ∧ aLen ≠ bLen then some 0b0100#4
  else if (opcode = 5 ∨ opcode = 6) ∧ aBase ≠ bBase ∧ aBase < bBase + aLen ∧ bBase < aBase + aLen then some 0b1000#4
  else none

end Sys2Proof.Machine
end

