-- ==== Sys2Proof/Certificates/Slice0/Obligations.lean ====
section
/-!
DEFINITION. The statements, from the numbered rules of spec/.
-/

open Sys2Proof Sys2Proof.Machine

/-! ## Decoding and encoding -/

/-- 30_encoding.md R75: encode and decode are inverse on legal commands, and the fields a legal command does not use are
zero. -/
def Obligations.DecodeInvertsEncode : Prop :=
  (∀ i : Instr, i.wellFormed = true → decode (encode i) = .ok i) ∧
  (∀ (cmd : Descriptor) (i : Instr), decode cmd = .ok i → i.wellFormed = true ∧ encode i = cmd) ∧
  ∀ (cmd : Descriptor) (i : Instr), decode cmd = .ok i →
    cmdField cmd 8 24 = 0 ∧ cmdField cmd 223 1 = 0 ∧
      match i with
      | .equals _ _ => cmdField cmd 160 63 = 0
      | .iszero _ => cmdField cmd 96 32 = 0 ∧ cmdField cmd 128 32 = 0 ∧ cmdField cmd 160 63 = 0
      | .compare _ _ => cmdField cmd 160 63 = 0
      | .increment _ _ => cmdField cmd 96 32 = 0 ∧ cmdField cmd 128 32 = 0
      | .add _ _ => cmdField cmd 160 63 = 0
      | .subtract _ _ => cmdField cmd 160 63 = 0

/-- 30_encoding.md R85: a descriptor is a legal encoding of a row exactly when its bits under the row's mask are the
row's match. -/
def Obligations.DecodeSelectsRowsByMaskAndMatch : Prop :=
  ∀ cmd : Descriptor,
    ((∃ a b, decode cmd = .ok (.equals a b)) ↔
      cmd &&& 0xFFFFFFFFFFFFFFFF00000000000000000000000000000000FFFFFFFF#224 = 0x00000001#224) ∧
    ((∃ a, decode cmd = .ok (.iszero a)) ↔
      cmd &&& 0xFFFFFFFFFFFFFFFFFFFFFFFFFFFFFFFF0000000000000000FFFFFFFF#224 = 0x00000002#224) ∧
    ((∃ a b, decode cmd = .ok (.compare a b)) ↔
      cmd &&& 0xFFFFFFFFFFFFFFFF00000000000000000000000000000000FFFFFFFF#224 = 0x00000003#224) ∧
    ((∃ a amount, decode cmd = .ok (.increment a amount)) ↔
      cmd &&& 0x8000000000000000FFFFFFFFFFFFFFFF0000000000000000FFFFFFFF#224 = 0x00000004#224) ∧
    ((∃ a b, decode cmd = .ok (.add a b)) ↔
      cmd &&& 0xFFFFFFFFFFFFFFFF00000000000000000000000000000000FFFFFFFF#224 = 0x00000005#224) ∧
    ((∃ a b, decode cmd = .ok (.subtract a b)) ↔
      cmd &&& 0xFFFFFFFFFFFFFFFF00000000000000000000000000000000FFFFFFFF#224 = 0x00000006#224)

/-- 30_encoding.md R73, R74: the operands of a decoded command are its fields read as unsigned numbers, unscaled,
unshifted and never sign-extended. -/
def Obligations.DecodedOperandsAreTheFields : Prop :=
  ∀ (cmd : Descriptor) (i : Instr), decode cmd = .ok i →
    let a : Buffer := ⟨cmdField cmd 32 32, cmdField cmd 64 32⟩
    let b : Buffer := ⟨cmdField cmd 96 32, cmdField cmd 128 32⟩
    match i with
    | .equals x y => x = a ∧ y = b
    | .iszero x => x = a
    | .compare x y => x = a ∧ y = b
    | .increment x amount => x = a ∧ amount = cmdField cmd 160 63
    | .add x y => x = a ∧ y = b
    | .subtract x y => x = a ∧ y = b

/-- 30_encoding.md R92, and the words E1, E2, E6 and E7 of 95_test_vectors.md section 2.7: the lines the spec writes out
assemble to the commands they say, and those have the descriptors the spec writes out, both ways. -/
def Obligations.WorkedEncodingsAreTheSpecs : Prop :=
  let rows : List (String × Instr × Descriptor) :=
    [("INCREMENT 0x1000:8", .increment ⟨0x1000, 8⟩ 1,
        0x00000000000000010000000000000000000000080000100000000004#224),
     ("COMPARE 0x1000:4, 0x2000:4", .compare ⟨0x1000, 4⟩ ⟨0x2000, 4⟩,
        0x00000000000000000000000400002000000000040000100000000003#224),
     ("INCREMENT 0x1000:8, #9223372036854775807", .increment ⟨0x1000, 8⟩ 9223372036854775807,
        0x7FFFFFFFFFFFFFFF0000000000000000000000080000100000000004#224),
     ("EQUALS 0x1000:4, 0x2000:4", .equals ⟨0x1000, 4⟩ ⟨0x2000, 4⟩,
        0x00000000000000000000000400002000000000040000100000000001#224),
     ("ISZERO 0x1000:4", .iszero ⟨0x1000, 4⟩,
        0x00000000000000000000000000000000000000040000100000000002#224),
     ("ADD 0x1000:4, 0x2000:4", .add ⟨0x1000, 4⟩ ⟨0x2000, 4⟩,
        0x00000000000000000000000400002000000000040000100000000005#224),
     ("SUBTRACT 0x1000:4, 0x2000:4", .subtract ⟨0x1000, 4⟩ ⟨0x2000, 4⟩,
        0x00000000000000000000000400002000000000040000100000000006#224)]
  ∀ row ∈ rows, assembleLine row.1.toList = some row.2.1 ∧ encode row.2.1 = row.2.2 ∧ decode row.2.2 = .ok row.2.1

/-- 30_encoding.md R86: a descriptor no row selects is answered BAD_COMMAND with RESULT 0, whatever memory holds and
wherever it exists, and nothing else changes. -/
def Obligations.IllegalDescriptorsAnswerBadCommand : Prop :=
  ∀ (s : State) (cmd : Descriptor) (rest : List Event), s.inputs = .present cmd [] :: rest →
    (∀ row ∈ [(0xFFFFFFFFFFFFFFFF00000000000000000000000000000000FFFFFFFF#224, 0x01#224),
        (0xFFFFFFFFFFFFFFFFFFFFFFFFFFFFFFFF0000000000000000FFFFFFFF#224, 0x02#224),
        (0xFFFFFFFFFFFFFFFF00000000000000000000000000000000FFFFFFFF#224, 0x03#224),
        (0x8000000000000000FFFFFFFFFFFFFFFF0000000000000000FFFFFFFF#224, 0x04#224),
        (0xFFFFFFFFFFFFFFFF00000000000000000000000000000000FFFFFFFF#224, 0x05#224),
        (0xFFFFFFFFFFFFFFFF00000000000000000000000000000000FFFFFFFF#224, 0x06#224)], cmd &&& row.1 ≠ row.2) →
    step s = .next { s with inputs := rest, responses := s.responses ++ [0b1000#4] }

/-- 30_encoding.md R80, R81, R82: where STATUS and RESULT stand in a response word, their codes, and what the RESULT of a
COMPARE reads as. -/
def Obligations.ResponseWordsShowStatusAndResult : Prop :=
  (∀ (st : Status) (r : BitVec 2), rspStatus (rspWord st r) = statusCode st ∧ rspResult (rspWord st r) = r) ∧
  statusCode .ok = 0b00#2 ∧ statusCode .lengthMismatch = 0b01#2 ∧ statusCode .badCommand = 0b10#2 ∧
  boolResult false = 0b00#2 ∧ boolResult true = 0b01#2 ∧
  comparisonOf (rspWord .ok (orderResult .lt)) = -1 ∧ comparisonOf (rspWord .ok (orderResult .eq)) = 0 ∧
  comparisonOf (rspWord .ok (orderResult .gt)) = 1

/-- 30_encoding.md R91: INCREMENT with the scalar omitted assembles exactly as with `#1`, and no other operation has a form
with a part omitted: the operands that assemble are, for each operation, those of its one form in R90, and for INCREMENT
those two. -/
def Obligations.OmittedScalarAssemblesAsOne : Prop :=
  (∀ base len : Nat, assembleForm .increment [.buffer base len] = assembleForm .increment [.buffer base len, .scalar 1]) ∧
  ∀ (op : Opcode) (operands : List TextOperand) (i : Instr), assembleForm op operands = some i →
    match op with
    | .increment => ∃ base len, operands = [.buffer base len] ∨ ∃ amount, operands = [.buffer base len, .scalar amount]
    | .iszero => ∃ base len, operands = [.buffer base len]
    | .equals | .compare | .add | .subtract =>
      ∃ aBase aLen bBase bLen, operands = [.buffer aBase aLen, .buffer bBase bLen]

/-- 30_encoding.md R90: a form whose numbers fit their fields assembles, range, lengths and overlap unchecked; one with a
number that does not fit is refused. -/
def Obligations.AssemblerChecksFieldsOnly : Prop :=
  ∀ (op : Opcode) (operands : List TextOperand) (i : Instr), instrOfText op operands = some i →
    (i.wellFormed = true → assembleForm op operands = some i) ∧
      (i.wellFormed = false → assembleForm op operands = none)

/-! ## The step -/

/-- A step runs the decoded command. With no other agent at work it is exec of the instruction, the descriptor taken off
the inputs (10_state.md R27, R30); with others keeping 20_memory.md R52 their accesses follow (notes/assumptions/8.md). -/
def Obligations.StepRunsTheDecodedCommand : Prop :=
  ∀ (s : State) (cmd : Descriptor) (during : List Access) (rest : List Event) (i : Instr),
    s.inputs = .present cmd during :: rest → decode cmd = .ok i → exclusive i during = true →
    step s = andThen (exec i { s with inputs := rest }) (applyAccesses during) ∧
      (during = [] → step s = exec i { s with inputs := rest })

/-- 60_exceptions.md R187: with nothing presented the engine is idle, and a step changes nothing (the model's form:
notes/assumptions/14.md). -/
def Obligations.IdleStepChangesNothing : Prop :=
  ∀ s : State, s.inputs = [] → step s = .next s

/-- 30_encoding.md R80; 70_reset_and_hazards.md R202: a step that goes on delivers one response for a command presented
and none for any other event. -/
def Obligations.OneResponsePerCommand : Prop :=
  ∀ (s t : State) (e : Event) (rest : List Event), s.inputs = e :: rest → step s = .next t →
    t.inputs = rest ∧ t.holes = s.holes ∧
      ((∃ cmd during r, e = .present cmd during ∧ t.responses = s.responses ++ [r]) ∨
        ((∀ cmd during, e ≠ .present cmd during) ∧ t.responses = s.responses))

/-- 30_encoding.md R83: RESULT 0b10 and STATUS 0b11 are never produced, RESULT 0b11 only by COMPARE, and with STATUS not
OK the RESULT is 0b00. -/
def Obligations.ResponsesNeverHoldUnusedCodes : Prop :=
  ∀ (s t : State) (r : RspWord), step s = .next t → t.responses = s.responses ++ [r] →
    rspResult r ≠ 0b10#2 ∧ rspStatus r ≠ 0b11#2 ∧
    (rspResult r = 0b11#2 → ∃ cmd during rest a b,
      s.inputs = .present cmd during :: rest ∧ decode cmd = .ok (.compare a b)) ∧
    (rspStatus r ≠ 0b00#2 → rspResult r = 0b00#2)

/-- Every step keeps what every reachable state satisfies: memory in canonical form and within ValidAddr (20_memory.md
R40, R44), every response one of the five words of 30_encoding.md R82. -/
def Obligations.EveryStepKeepsTheInvariant : Prop :=
  ∀ s t : State, s.Inv → step s = .next t → t.Inv

/-- The state after reset satisfies the invariant. -/
def Obligations.ResetMeetsTheInvariant : Prop := State.reset.Inv

/-- 10_state.md R32; 70_reset_and_hazards.md R200: after reset nothing is in progress and no response is outstanding. That
no byte of memory has a value and that every address exists is the model's (notes/assumptions/3.md, 5.md). -/
def Obligations.ResetLeavesTheEngineIdle : Prop :=
  State.reset.inputs = [] ∧ State.reset.responses = [] ∧ (∀ addr, State.reset.mem.read addr = none) ∧
    ∀ addr, addr < 2 ^ 32 → State.reset.validAddr addr = true

/-- 70_reset_and_hazards.md R201: reset neither reads nor writes buffer memory. -/
def Obligations.ResetKeepsBufferMemory : Prop :=
  ∀ (s : State) (rest : List Event), s.inputs = .reset :: rest → step s = .next { s with inputs := rest }

/-- 70_reset_and_hazards.md R202: reset in mid-command delivers no response, leaves every byte outside the destination as
it was and, for EQUALS, ISZERO and COMPARE, all of memory. That the bytes of the destination then count as unwritten is
the model's (notes/assumptions/9.md). -/
def Obligations.ResetDuringCommandForgetsTheDestination : Prop :=
  ∀ (s t : State) (cmd : Descriptor) (rest : List Event), s.inputs = .resetDuring cmd :: rest → step s = .next t →
    t.responses = s.responses ∧ t.inputs = rest ∧ t.holes = s.holes ∧
      ((∀ i, decode cmd = .ok i → destinationsOf i = []) → ∀ addr, t.mem.read addr = s.mem.read addr) ∧
      ∀ i x, decode cmd = .ok i → destinationsOf i = [x] →
        SameOutside x s t ∧ ∀ addr, inBuffer x addr = true → t.mem.read addr = none

/-- 60_exceptions.md R186: between two commands an agent reads or writes any byte of buffer memory; a read changes
nothing, a write its one byte. -/
def Obligations.AgentsAccessMemoryBetweenCommands : Prop :=
  ∀ (s : State) (addr : BitVec 32) (b : Byte) (rest : List Event), s.validAddr addr.toNat = true →
    (s.inputs = .access (.read addr) :: rest → step s = .next { s with inputs := rest }) ∧
    (s.inputs = .access (.write addr b) :: rest → ∃ t, step s = .next t ∧ t.inputs = rest ∧ t.holes = s.holes ∧
      t.responses = s.responses ∧ t.mem.read addr.toNat = some b ∧
      ∀ other, other ≠ addr.toNat → t.mem.read other = s.mem.read other)

/-- 10_state.md R20: the effect of a command depends only on its descriptor and on the contents of buffer memory when it
starts (and on where memory exists), never on an earlier command, on an earlier response or on what comes later. -/
def Obligations.EffectDependsOnCommandAndMemoryOnly : Prop :=
  ∀ (s t : State) (e : Event) (rs rt : List Event), s.mem = t.mem → s.holes = t.holes →
    s.inputs = e :: rs → t.inputs = e :: rt →
    (∀ s', step s = .next s' → ∃ t' new, step t = .next t' ∧ t'.mem = s'.mem ∧
      s'.responses = s.responses ++ new ∧ t'.responses = t.responses ++ new) ∧
    (∀ f, step s = .fault f → step t = .fault f) ∧ ∀ r, step s = .refused r → step t = .refused r

/-! ## The operations -/

/-- 40_equals_iszero.md R100: RESULT is 1 exactly when the lengths are equal and no byte differs, 0 otherwise, STATUS OK in
both cases; nothing is written. Both buffers lie in ValidAddr (20_memory.md R44). The bytes need a value only where the
lengths are equal (the model's reading: notes/assumptions/4.md). -/
def Obligations.EqualsAnswersLengthAndByteEquality : Prop :=
  ∀ (s : State) (a b : Buffer), Placed s a → Placed s b →
    (a.len ≠ b.len → exec (.equals a b) s = .next (s.deliver 0b0000#4)) ∧
    ∀ xs ys, a.len = b.len → Holds s a xs → Holds s b ys →
      ((∀ k, k < a.len → s.mem.read (a.base + k) = s.mem.read (b.base + k)) →
        exec (.equals a b) s = .next (s.deliver 0b0001#4)) ∧
      (∀ k, k < a.len → s.mem.read (a.base + k) ≠ s.mem.read (b.base + k) →
        exec (.equals a b) s = .next (s.deliver 0b0000#4))

/-- 40_equals_iszero.md R104; 44_arithmetic_laws.md R153: RESULT is 1 exactly when every byte is 0, equivalently when the
number is 0; STATUS OK always; nothing is written. -/
def Obligations.IszeroAnswersWhetherEveryByteIsZero : Prop :=
  ∀ (s : State) (a : Buffer) (xs : List Byte), Holds s a xs →
    ((∀ k, k < a.len → s.mem.read (a.base + k) = some 0) → exec (.iszero a) s = .next (s.deliver 0b0001#4)) ∧
    (∀ k, k < a.len → s.mem.read (a.base + k) ≠ some 0 → exec (.iszero a) s = .next (s.deliver 0b0000#4)) ∧
    (val xs = 0 → exec (.iszero a) s = .next (s.deliver 0b0001#4)) ∧
    (val xs ≠ 0 → exec (.iszero a) s = .next (s.deliver 0b0000#4))

/-- 41_compare.md R110: RESULT is the three-way comparison of the two numbers; nothing is written. -/
def Obligations.CompareAnswersNumericOrder : Prop :=
  ∀ (s : State) (a b : Buffer) (xs ys : List Byte), Holds s a xs → Holds s b ys → a.len = b.len →
    exec (.compare a b) s = .next (s.deliver
      (if val xs < val ys then 0b0011#4 else if val xs = val ys then 0b0000#4 else 0b0001#4))

/-- 41_compare.md R110, R111: the highest index at which the bytes differ decides, bytes as unsigned numbers. -/
def Obligations.CompareDecidesAtTheHighestDifference : Prop :=
  ∀ (s : State) (a b : Buffer) (xs ys : List Byte) (k : Nat) (x y : Byte), Holds s a xs → Holds s b ys →
    a.len = b.len → k < a.len → s.mem.read (a.base + k) = some x → s.mem.read (b.base + k) = some y → x ≠ y →
    (∀ m, k < m → m < a.len → s.mem.read (a.base + m) = s.mem.read (b.base + m)) →
    exec (.compare a b) s = .next (s.deliver (if x.toNat < y.toNat then 0b0011#4 else 0b0001#4))

/-- 42_increment.md R120: the buffer holds (val(a) + amount) mod 256^n afterwards, the response is OK with RESULT 0, and
no other byte, no input and nothing of the platform changes. -/
def Obligations.IncrementAddsTheScalar : Prop :=
  ∀ (s : State) (a : Buffer) (amount : Nat) (xs : List Byte), Holds s a xs →
    ∃ t zs, exec (.increment a amount) s = .next t ∧ t.mem.readRange a.base a.len = some zs ∧
      val zs = (val xs + amount) % 256 ^ a.len ∧ SameOutside a s t ∧ Answered s t 0b0000#4

/-- 43_add_subtract.md R130: a holds (val(a) + val(b)) mod 256^n afterwards, b is as it was unless it is a itself, the
response is OK with RESULT 0, and nothing else changes. -/
def Obligations.AddStoresTheSum : Prop :=
  ∀ (s : State) (a b : Buffer) (xs ys : List Byte), Holds s a xs → Holds s b ys → a.len = b.len →
    partialOverlap a b = false →
    ∃ t zs, exec (.add a b) s = .next t ∧ t.mem.readRange a.base a.len = some zs ∧
      val zs = (val xs + val ys) % 256 ^ a.len ∧
      (a ≠ b → t.mem.readRange b.base b.len = some ys) ∧ SameOutside a s t ∧ Answered s t 0b0000#4

/-- 43_add_subtract.md R135: a holds (val(a) - val(b)) mod 256^n afterwards, with its two cases, b is as it was unless it
is a itself, the response is OK with RESULT 0, and nothing else changes. -/
def Obligations.SubtractStoresTheDifference : Prop :=
  ∀ (s : State) (a b : Buffer) (xs ys : List Byte), Holds s a xs → Holds s b ys → a.len = b.len →
    partialOverlap a b = false →
    ∃ t zs, exec (.subtract a b) s = .next t ∧ t.mem.readRange a.base a.len = some zs ∧
      (val zs : Int) = ((val xs : Int) - (val ys : Int)) % (256 ^ a.len : Int) ∧
      (val ys ≤ val xs → val zs = val xs - val ys) ∧
      (val xs < val ys → val zs = val xs + 256 ^ a.len - val ys) ∧
      (a ≠ b → t.mem.readRange b.base b.len = some ys) ∧ SameOutside a s t ∧ Answered s t 0b0000#4

/-- 60_exceptions.md R176, R174: the checks decide in their order. A command that fails one of the checks 1 to 4, which need
no memory access, is answered BAD_COMMAND whatever memory holds and wherever it exists; of the others, one that names a
byte outside ValidAddr is refused (20_memory.md R44; notes/assumptions/4.md); one that fails check 5 or 6 is answered so, whatever memory holds;
EQUALS on unequal lengths is OK, false; every other command that ends ends with OK. -/
def Obligations.ChecksDecideInOrder : Prop :=
  ∀ (s : State) (cmd : Descriptor) (rest : List Event), s.inputs = .present cmd [] :: rest →
    (malformed cmd = true → step s = .next { s with inputs := rest, responses := s.responses ++ [0b1000#4] }) ∧
    (malformed cmd = false → namesValidBytes s cmd = false → step s = .refused .outsideValidAddr) ∧
    (malformed cmd = false → namesValidBytes s cmd = true →
      (∀ r, mismatchOf cmd = some r →
        step s = .next { s with inputs := rest, responses := s.responses ++ [r] }) ∧
      (mismatchOf cmd = none → cmdField cmd 0 8 = 1 → cmdField cmd 64 32 ≠ cmdField cmd 128 32 →
        step s = .next { s with inputs := rest, responses := s.responses ++ [0b0000#4] }) ∧
      (mismatchOf cmd = none → ∀ t, step s = .next t →
        ∃ r, t.responses = s.responses ++ [r] ∧ rspStatus r = 0b00#2))

/-- 44_arithmetic_laws.md R154: two legal operands, in range and in ValidAddr (20_memory.md R43, R44), of differing lengths:
EQUALS answers false, COMPARE, ADD and SUBTRACT answer LENGTH_MISMATCH, and memory is unchanged. -/
def Obligations.UnequalLengthsAnswered : Prop :=
  ∀ (s : State) (a b : Buffer), Placed s a → Placed s b → a.len ≠ b.len →
    exec (.equals a b) s = .next (s.deliver 0b0000#4) ∧ exec (.compare a b) s = .next (s.deliver 0b0100#4) ∧
    exec (.add a b) s = .next (s.deliver 0b0100#4) ∧ exec (.subtract a b) s = .next (s.deliver 0b0100#4)

/-- 60_exceptions.md R171: LENGTH_MISMATCH comes from COMPARE, ADD and SUBTRACT alone, only where the lengths differ, and
no byte is written. -/
def Obligations.LengthMismatchOnlyFromUnequalLengths : Prop :=
  ∀ (s t : State) (i : Instr), exec i s = .next t → t.responses = s.responses ++ [0b0100#4] →
    t.mem = s.mem ∧ ∃ a b, a.len ≠ b.len ∧ (i = .compare a b ∨ i = .add a b ∨ i = .subtract a b)

/-- 20_memory.md R43: a command that names a buffer running past the top of memory is answered BAD_COMMAND, whatever
memory holds; a length-0 buffer is in range at every base. -/
def Obligations.BuffersPastTheTopAreRejected : Prop :=
  (∀ (s : State) (i : Instr) (x : Buffer), x ∈ buffersOf i → 2 ^ 32 < x.base + x.len →
    exec i s = .next (s.deliver 0b1000#4)) ∧
  ∀ base, base < 2 ^ 32 → inRange ⟨base, 0⟩ = true

/-- 20_memory.md R62: what the six operations answer on length-0 buffers, with no memory access for them, whatever memory
holds and wherever it exists; a non-empty buffer beside one lies in ValidAddr (R44). -/
def Obligations.EmptyBuffersAreLegalOperands : Prop :=
  (∀ (s : State) (p q amount : Nat), p < 2 ^ 32 → q < 2 ^ 32 →
    exec (.equals ⟨p, 0⟩ ⟨q, 0⟩) s = .next (s.deliver 0b0001#4) ∧
    exec (.iszero ⟨p, 0⟩) s = .next (s.deliver 0b0001#4) ∧
    exec (.compare ⟨p, 0⟩ ⟨q, 0⟩) s = .next (s.deliver 0b0000#4) ∧
    exec (.increment ⟨p, 0⟩ amount) s = .next (s.deliver 0b0000#4) ∧
    exec (.add ⟨p, 0⟩ ⟨q, 0⟩) s = .next (s.deliver 0b0000#4) ∧
    exec (.subtract ⟨p, 0⟩ ⟨q, 0⟩) s = .next (s.deliver 0b0000#4)) ∧
  ∀ (s : State) (p : Nat) (x : Buffer), p < 2 ^ 32 → Placed s x → 0 < x.len →
    exec (.equals ⟨p, 0⟩ x) s = .next (s.deliver 0b0000#4) ∧ exec (.equals x ⟨p, 0⟩) s = .next (s.deliver 0b0000#4) ∧
    exec (.compare ⟨p, 0⟩ x) s = .next (s.deliver 0b0100#4) ∧ exec (.compare x ⟨p, 0⟩) s = .next (s.deliver 0b0100#4) ∧
    exec (.add ⟨p, 0⟩ x) s = .next (s.deliver 0b0100#4) ∧ exec (.add x ⟨p, 0⟩) s = .next (s.deliver 0b0100#4) ∧
    exec (.subtract ⟨p, 0⟩ x) s = .next (s.deliver 0b0100#4) ∧
    exec (.subtract x ⟨p, 0⟩) s = .next (s.deliver 0b0100#4)

/-- 20_memory.md R60: exact aliasing is legal: EQUALS is true, COMPARE is 0, ADD doubles, SUBTRACT leaves zeros. -/
def Obligations.ExactAliasingIsLegal : Prop :=
  ∀ (s : State) (a : Buffer) (xs : List Byte), Holds s a xs →
    exec (.equals a a) s = .next (s.deliver 0b0001#4) ∧ exec (.compare a a) s = .next (s.deliver 0b0000#4) ∧
    (∃ t zs, exec (.add a a) s = .next t ∧ t.mem.readRange a.base a.len = some zs ∧
      val zs = (2 * val xs) % 256 ^ a.len ∧ SameOutside a s t ∧ Answered s t 0b0000#4) ∧
    ∃ t, exec (.subtract a a) s = .next t ∧ (∀ k, k < a.len → t.mem.read (a.base + k) = some 0) ∧
      SameOutside a s t ∧ Answered s t 0b0000#4

/-- 20_memory.md R61: ADD and SUBTRACT of partially overlapping buffers of equal length are answered BAD_COMMAND and write
nothing; EQUALS and COMPARE of buffers that overlap in any way answer as their rules say of the bytes as they stand. Both
buffers lie in ValidAddr (R44). -/
def Obligations.PartialOverlapIsLegalForReadersOnly : Prop :=
  ∀ (s : State) (a b : Buffer), Placed s a → Placed s b → a.base < b.base + b.len → b.base < a.base + a.len →
    (a.len = b.len → a.base ≠ b.base →
      exec (.add a b) s = .next (s.deliver 0b1000#4) ∧ exec (.subtract a b) s = .next (s.deliver 0b1000#4)) ∧
    ∀ xs ys, Holds s a xs → Holds s b ys →
      exec (.equals a b) s = .next (s.deliver (if xs = ys then 0b0001#4 else 0b0000#4)) ∧
      exec (.compare a b) s = .next (s.deliver
        (if a.len ≠ b.len then 0b0100#4 else if val xs < val ys then 0b0011#4
          else if val xs = val ys then 0b0000#4 else 0b0001#4))

/-- 60_exceptions.md R177: a command that ends with a status that is not OK has written no byte. -/
def Obligations.FailedCommandsWriteNothing : Prop :=
  ∀ (s t : State) (cmd : Descriptor) (rest : List Event) (r : RspWord), s.inputs = .present cmd [] :: rest →
    step s = .next t → t.responses = s.responses ++ [r] → rspStatus r ≠ 0b00#2 → t.mem = s.mem

/-- 10_state.md R31: the only bytes a command may change are those of buffer a of an INCREMENT, ADD or SUBTRACT that ends
with OK, and none of them is a byte of b unless b is a itself; inputs and platform never change, and one response is
delivered. -/
def Obligations.OnlyTheDestinationChanges : Prop :=
  ∀ (s t : State) (i : Instr), exec i s = .next t →
    (∃ r, Answered s t r) ∧
    ∀ addr, t.mem.read addr ≠ s.mem.read addr →
      t.responses = s.responses ++ [0b0000#4] ∧
      ∃ a, inBuffer a addr = true ∧
        ((∃ amount, i = .increment a amount) ∨
          ∃ b, (i = .add a b ∨ i = .subtract a b) ∧ (a = b ∨ inBuffer b addr = false))

/-- 60_exceptions.md R182: where the caller kept its duties every command ends, with one response. -/
def Obligations.EveryReadyCommandCompletes : Prop :=
  ∀ (s : State) (i : Instr), Ready s i → ∃ t r, exec i s = .next t ∧ Answered s t r

/-- 20_memory.md R44; 70_reset_and_hazards.md R206: a command stops only where a byte of a buffer it names was never
written (a fault) or lies outside ValidAddr (a refusal). -/
def Obligations.CommandsStopOnlyOutsideTheContract : Prop :=
  ∀ (s : State) (i : Instr),
    (∀ f, exec i s = .fault f → f = .unwrittenByte ∧
      ∃ x ∈ buffersOf i, ∃ addr, inBuffer x addr = true ∧ s.mem.read addr = none) ∧
    ∀ r, exec i s = .refused r → r = .outsideValidAddr ∧
      ∃ x ∈ buffersOf i, ∃ addr, inBuffer x addr = true ∧ s.validAddr addr = false

/-- 70_reset_and_hazards.md R206: an operation that reads a buffer with a byte nobody has written faults (the model's
choice among those the spec gives: notes/assumptions/5.md). That COMPARE faults on such a byte below the first difference,
and INCREMENT on one above where the carry has died out, is also the model's choice: it reads every byte of every buffer,
which the spec leaves open (20_memory.md R63; notes/assumptions/6.md). Partially overlapping buffers are legal for EQUALS
and COMPARE (R61). -/
def Obligations.UnwrittenBytesFault : Prop :=
  ∀ (s : State) (a : Buffer) (amount addr : Nat), Placed s a → inBuffer a addr = true → s.mem.read addr = none →
    exec (.iszero a) s = .fault .unwrittenByte ∧ exec (.increment a amount) s = .fault .unwrittenByte ∧
    ∀ b, Placed s b → a.len = b.len →
      exec (.equals a b) s = .fault .unwrittenByte ∧ exec (.equals b a) s = .fault .unwrittenByte ∧
      exec (.compare a b) s = .fault .unwrittenByte ∧ exec (.compare b a) s = .fault .unwrittenByte ∧
      (partialOverlap a b = false →
        exec (.add a b) s = .fault .unwrittenByte ∧ exec (.add b a) s = .fault .unwrittenByte ∧
        exec (.subtract a b) s = .fault .unwrittenByte ∧ exec (.subtract b a) s = .fault .unwrittenByte)

/-- 20_memory.md R44: a command that names a byte outside ValidAddr is refused, whatever memory holds, whatever the lengths
and however the buffers overlap; only a buffer past the top of memory comes before it (60_exceptions.md R176, checks 3 and
4; notes/assumptions/4.md). -/
def Obligations.AccessOutsideValidAddrIsRefused : Prop :=
  ∀ (s : State) (a : Buffer) (amount addr : Nat), inRange a = true → inBuffer a addr = true →
    s.validAddr addr = false →
    exec (.iszero a) s = .refused .outsideValidAddr ∧ exec (.increment a amount) s = .refused .outsideValidAddr ∧
    ∀ b, inRange b = true →
      exec (.equals a b) s = .refused .outsideValidAddr ∧ exec (.equals b a) s = .refused .outsideValidAddr ∧
      exec (.compare a b) s = .refused .outsideValidAddr ∧ exec (.compare b a) s = .refused .outsideValidAddr ∧
      exec (.add a b) s = .refused .outsideValidAddr ∧ exec (.add b a) s = .refused .outsideValidAddr ∧
      exec (.subtract a b) s = .refused .outsideValidAddr ∧ exec (.subtract b a) s = .refused .outsideValidAddr

/-! ## Laws over the operations -/

/-- 42_increment.md R123: incrementing a full buffer by 1 leaves it all zero, with STATUS OK and RESULT 0, the response that
an increment by 1 of any buffer gets, wrapping or not. -/
def Obligations.IncrementOfFullBufferWrapsToZero : Prop :=
  ∀ (s : State) (a b : Buffer) (ys : List Byte), Holds s a (List.replicate a.len 0xFF#8) → Holds s b ys →
    ∃ t u, exec (.increment a 1) s = .next t ∧ t.mem.readRange a.base a.len = some (List.replicate a.len 0#8) ∧
      SameOutside a s t ∧ Answered s t 0b0000#4 ∧
      exec (.increment b 1) s = .next u ∧ u.responses = t.responses

/-- 42_increment.md R124: incrementing an all-zero buffer by 1 gives 1, 0, ..., 0. -/
def Obligations.IncrementOfZeroGivesOne : Prop :=
  ∀ (s : State) (a : Buffer) (n : Nat), a.len = n + 1 → Holds s a (List.replicate (n + 1) 0#8) →
    ∃ t, exec (.increment a 1) s = .next t ∧
      t.mem.readRange a.base a.len = some (1#8 :: List.replicate n 0#8) ∧ Answered s t 0b0000#4

/-- 42_increment.md R122: an amount of 0 adds nothing; it does not mean the default. -/
def Obligations.AmountZeroAddsNothing : Prop :=
  ∀ (s : State) (a : Buffer) (xs : List Byte), Holds s a xs →
    ∃ t, exec (.increment a 0) s = .next t ∧ (∀ addr, t.mem.read addr = s.mem.read addr) ∧ Answered s t 0b0000#4

/-- 42_increment.md R126: INCREMENT by an amount does what ADD of a buffer holding bytes_n(amount mod 256^n) does. -/
def Obligations.IncrementIsAddOfTheAmountsDigits : Prop :=
  ∀ (s : State) (a b : Buffer) (amount : Nat) (xs : List Byte), Holds s a xs → a.len = b.len →
    partialOverlap a b = false → Holds s b (bytesOf a.len (amount % 256 ^ a.len)) →
    ∃ t, exec (.increment a amount) s = .next t ∧ exec (.add a b) s = .next t

/-- 43_add_subtract.md R138: SUBTRACT of b does what ADD of a buffer holding 256^n - val(b), modulo 256^n, does. -/
def Obligations.SubtractIsAddOfTheComplement : Prop :=
  ∀ (s : State) (a b c : Buffer) (xs ys zs : List Byte), Holds s a xs → Holds s b ys → Holds s c zs →
    a.len = b.len → a.len = c.len → partialOverlap a b = false → partialOverlap a c = false →
    val zs = (256 ^ a.len - val ys) % 256 ^ a.len →
    ∃ t, exec (.subtract a b) s = .next t ∧ exec (.add a c) s = .next t

/-- 43_add_subtract.md R131: ADD a, b and ADD b, a compute the same sum; the first writes it into a and leaves b, the
second writes it into b and leaves a. -/
def Obligations.AddWritesItsFirstOperand : Prop :=
  ∀ (s : State) (a b : Buffer) (xs ys : List Byte), Holds s a xs → Holds s b ys → a.len = b.len →
    partialOverlap a b = false → a ≠ b →
    ∃ t u zs, exec (.add a b) s = .next t ∧ exec (.add b a) s = .next u ∧
      t.mem.readRange a.base a.len = some zs ∧ t.mem.readRange b.base b.len = some ys ∧
      u.mem.readRange b.base b.len = some zs ∧ u.mem.readRange a.base a.len = some xs

/-- 44_arithmetic_laws.md R157, R158: ADD of b, then SUBTRACT of a buffer c that holds what b held (b itself, or a copy),
restores memory, wrap or no wrap; so do SUBTRACT then ADD, and INCREMENT by k then SUBTRACT of bytes_n(k mod 256^n). -/
def Obligations.AddAndSubtractUndoEachOther : Prop :=
  ∀ (s : State) (a b c : Buffer) (xs ys : List Byte), s.mem.wf → Holds s a xs → Holds s b ys → Holds s c ys →
    a.len = b.len → a.len = c.len → partialOverlap a b = false → partialOverlap a c = false → a ≠ c →
    (∃ t u, exec (.add a b) s = .next t ∧ exec (.subtract a c) t = .next u ∧ u.mem = s.mem ∧
      u.responses = s.responses ++ [0b0000#4, 0b0000#4]) ∧
    (∃ t u, exec (.subtract a b) s = .next t ∧ exec (.add a c) t = .next u ∧ u.mem = s.mem ∧
      u.responses = s.responses ++ [0b0000#4, 0b0000#4]) ∧
    ∀ k, ys = bytesOf a.len (k % 256 ^ a.len) →
      ∃ t u, exec (.increment a k) s = .next t ∧ exec (.subtract a c) t = .next u ∧ u.mem = s.mem ∧
        u.responses = s.responses ++ [0b0000#4, 0b0000#4]

/-- 44_arithmetic_laws.md R159: increments compose, in either order. -/
def Obligations.IncrementsCompose : Prop :=
  ∀ (s : State) (a : Buffer) (x y : Nat) (xs : List Byte), s.mem.wf → Holds s a xs →
    ∃ t u v w z, exec (.increment a x) s = .next t ∧ exec (.increment a y) t = .next u ∧
      exec (.increment a y) s = .next v ∧ exec (.increment a x) v = .next w ∧
      exec (.increment a (x + y)) s = .next z ∧ u.mem = z.mem ∧ w.mem = z.mem

/-- 44_arithmetic_laws.md R159: k increments by 1 add k modulo 256^n; the buffer is back at its start exactly when 256^n
divides k, so after 256^n of them and no earlier. -/
def Obligations.IncrementByOneHasPeriod256ToTheLength : Prop :=
  ∀ (s : State) (a : Buffer) (xs : List Byte) (k : Nat), Holds s a xs →
    ∃ t zs, execTimes (.increment a 1) k s = .next t ∧ t.mem.readRange a.base a.len = some zs ∧
      val zs = (val xs + k) % 256 ^ a.len ∧ (zs = xs ↔ 256 ^ a.len ∣ k) ∧ SameOutside a s t ∧
      t.responses = s.responses ++ List.replicate k 0b0000#4

/-- 44_arithmetic_laws.md R160: with a copy of the old value, COMPARE tells a wrap from none: after ADD of a non-zero b or
INCREMENT by an amount between 0 and 256^n, -1 with a wrap and +1 without; after SUBTRACT of a non-zero b the other way
round. -/
def Obligations.CompareTellsAWrap : Prop :=
  ∀ (s : State) (a b c : Buffer) (xs ys : List Byte) (amount : Nat), Holds s a xs → Holds s b ys → Holds s c xs →
    a.len = b.len → a.len = c.len → partialOverlap a b = false →
    (c.base + c.len ≤ a.base ∨ a.base + a.len ≤ c.base) →
    (val ys ≠ 0 →
      (∃ t, exec (.add a b) s = .next t ∧ exec (.compare a c) t =
        .next (t.deliver (if 256 ^ a.len ≤ val xs + val ys then 0b0011#4 else 0b0001#4))) ∧
      ∃ t, exec (.subtract a b) s = .next t ∧ exec (.compare a c) t =
        .next (t.deliver (if val ys ≤ val xs then 0b0011#4 else 0b0001#4))) ∧
    (0 < amount → amount < 256 ^ a.len →
      ∃ t, exec (.increment a amount) s = .next t ∧ exec (.compare a c) t =
        .next (t.deliver (if 256 ^ a.len ≤ val xs + amount then 0b0011#4 else 0b0001#4)))

/-- 40_equals_iszero.md R105: after INCREMENT by 1, ISZERO is true exactly when every byte was 0xFF. -/
def Obligations.IszeroTellsAWrappedCounter : Prop :=
  ∀ (s : State) (a : Buffer) (xs : List Byte), Holds s a xs →
    ∃ t, exec (.increment a 1) s = .next t ∧
      ((∀ x ∈ xs, x = 0xFF#8) → exec (.iszero a) t = .next (t.deliver 0b0001#4)) ∧
      (∀ x ∈ xs, x ≠ 0xFF#8 → exec (.iszero a) t = .next (t.deliver 0b0000#4))

/-- 44_arithmetic_laws.md R152: for buffers of equal length EQUALS is true exactly when COMPARE is 0. -/
def Obligations.EqualsAgreesWithCompare : Prop :=
  ∀ (s : State) (a b : Buffer) (xs ys : List Byte), Holds s a xs → Holds s b ys → a.len = b.len →
    ∃ t u r q, exec (.equals a b) s = .next t ∧ t.responses = s.responses ++ [r] ∧
      exec (.compare a b) s = .next u ∧ u.responses = s.responses ++ [q] ∧
      rspStatus r = 0b00#2 ∧ rspStatus q = 0b00#2 ∧ (rspResult r = 0b01#2 ↔ comparisonOf q = 0)

/-- 41_compare.md R112: COMPARE is 0 of a buffer with itself, antisymmetric and transitive, and 0 exactly where EQUALS is
true; against a zero buffer it is 0 exactly when the buffer is zero and +1 otherwise. -/
def Obligations.CompareIsAStrictTotalOrder : Prop :=
  ∀ (s : State) (a b c : Buffer) (xs ys zs : List Byte), Holds s a xs → Holds s b ys → Holds s c zs →
    a.len = b.len → a.len = c.len →
    exec (.compare a a) s = .next (s.deliver 0b0000#4) ∧
    (∃ r q, exec (.compare a b) s = .next (s.deliver r) ∧ exec (.compare b a) s = .next (s.deliver q) ∧
      comparisonOf r = -comparisonOf q) ∧
    (exec (.compare a b) s = .next (s.deliver 0b0011#4) → exec (.compare b c) s = .next (s.deliver 0b0011#4) →
      exec (.compare a c) s = .next (s.deliver 0b0011#4)) ∧
    (exec (.compare a b) s = .next (s.deliver 0b0000#4) ↔ exec (.equals a b) s = .next (s.deliver 0b0001#4)) ∧
    (val zs = 0 →
      (exec (.iszero a) s = .next (s.deliver 0b0001#4) → exec (.compare a c) s = .next (s.deliver 0b0000#4)) ∧
      (exec (.iszero a) s = .next (s.deliver 0b0000#4) → exec (.compare a c) s = .next (s.deliver 0b0001#4)))

/-- 20_memory.md R48: the first k bytes of a buffer, loaded with the least significant first, are its number modulo
256^k. -/
def Obligations.ShorterLoadSeesTheLowDigits : Prop :=
  ∀ (s : State) (a : Buffer) (xs : List Byte) (k : Nat), Holds s a xs → k ≤ a.len →
    ∃ ys, s.mem.readRange a.base k = some ys ∧ val ys = val xs % 256 ^ k

/-! ## Several agents -/

/-- 20_memory.md R54: two commands that keep the exclusive-access obligation towards each other leave the same memory and
get the same responses in either order. -/
def Obligations.CompatibleCommandsCommute : Prop :=
  ∀ (s t u : State) (i j : Instr), s.mem.wf → Compatible i j → exec i s = .next t → exec j t = .next u →
    ∃ t' u' r q, exec j s = .next t' ∧ exec i t' = .next u' ∧ u'.mem = u.mem ∧
      t.responses = s.responses ++ [r] ∧ u.responses = s.responses ++ [r, q] ∧
      t'.responses = s.responses ++ [q] ∧ u'.responses = s.responses ++ [q, r]

/-- 20_memory.md R50, R52, R57: accesses of other agents that keep the obligation towards a command may come before it or
after it, with the same memory and the same response. -/
def Obligations.AllowedAccessesCommuteWithTheCommand : Prop :=
  ∀ (s t u : State) (i : Instr) (during : List Access), s.mem.wf → exclusive i during = true →
    exec i s = .next t → applyAccesses during t = .next u →
    ∃ v, applyAccesses during s = .next v ∧ exec i v = .next u

/-- 20_memory.md R53: a run in which another agent breaks the exclusive-access obligation is refused: it writes a byte of
a buffer the command names, or touches one the command writes (notes/assumptions/8.md). -/
def Obligations.BrokenExclusivityIsRefused : Prop :=
  ∀ (s : State) (cmd : Descriptor) (during : List Access) (rest : List Event) (i : Instr) (x : Buffer)
    (addr : BitVec 32), s.inputs = .present cmd during :: rest → decode cmd = .ok i → inBuffer x addr.toNat = true →
    (x ∈ buffersOf i ∧ (∃ b, .write addr b ∈ during) ∨ x ∈ destinationsOf i ∧ .read addr ∈ during) →
    step s = .refused .exclusiveAccessBroken
end

