-- ==== Sys2Proof/Laws/Decode.lean ====
section
/-!
SUPPORT. The fields of a descriptor and back (30_encoding.md R71).
-/

namespace Sys2Proof

/-- Every field of a descriptor built from fields reads back. -/
theorem fieldsOf_descriptorOf (f : Fields) : fieldsOf (descriptorOf f) = f := by
  obtain ⟨op, r0, ab, al, bb, bl, am, r1⟩ := f
  simp only [fieldsOf, descriptorOf, Fields.mk.injEq]
  refine ⟨?_, ?_, ?_, ?_, ?_, ?_, ?_, ?_⟩ <;>
  · refine BitVec.eq_of_getLsbD_eq fun i hi => ?_
    simp only [BitVec.getLsbD_extractLsb', BitVec.getLsbD_append, hi, decide_true, Bool.true_and]
    split_ifs <;> first | omega | exact congrArg (BitVec.getLsbD _) (by omega)

/-- A descriptor is what its fields make. -/
theorem descriptorOf_fieldsOf (d : Descriptor) : descriptorOf (fieldsOf d) = d := by
  refine BitVec.eq_of_getLsbD_eq fun i hi => ?_
  simp only [fieldsOf, descriptorOf, BitVec.getLsbD_append, BitVec.getLsbD_extractLsb']
  split_ifs <;> rw [decide_eq_true (by omega), Bool.true_and] <;> exact congrArg (BitVec.getLsbD _) (by omega)

end Sys2Proof
end

