-- ==== Sys2Proof/Laws/Digits.lean ====
section
/-!
SUPPORT. What the digit algorithms compute, in terms of the number a buffer holds (00_scope.md R12): the loop invariants
the spec states beside its reference algorithms (42_increment.md R120; 43_add_subtract.md R130, R135) and the agreement
of the scan with the numeric order (41_compare.md R111).
-/

namespace Sys2Proof.Machine

@[simp] theorem val_nil : val [] = 0 := rfl

theorem val_cons (x : Byte) (xs : List Byte) : val (x :: xs) = x.toNat + 256 * val xs := rfl

theorem val_lt (xs : List Byte) : val xs < 256 ^ xs.length := by
  induction xs with
  | nil => simp
  | cons x xs ih =>
    rw [val_cons, List.length_cons, Nat.pow_succ]
    have := x.isLt
    omega

/-- A number fixes every digit (44_arithmetic_laws.md R151). -/
theorem val_inj {xs ys : List Byte} (hl : xs.length = ys.length) (hv : val xs = val ys) : xs = ys := by
  induction xs generalizing ys with
  | nil => exact (List.length_eq_zero_iff.1 hl.symm).symm
  | cons x xs ih =>
    cases ys with
    | nil => simp at hl
    | cons y ys =>
      rw [val_cons, val_cons] at hv
      have hx := x.isLt
      have hy := y.isLt
      have h1 : x.toNat = y.toNat := by omega
      rw [ih (by simpa using hl) (by omega), BitVec.eq_of_toNat_eq h1]

@[simp] theorem bytesOf_length (n v : Nat) : (bytesOf n v).length = n := by
  induction n generalizing v with
  | zero => rfl
  | succ n ih => simp [bytesOf, ih]

theorem toNat_digit (v : Nat) : (BitVec.ofNat 8 (v % Config.radix)).toNat = v % 256 := by
  simp [Config.radix]

theorem val_bytesOf (n v : Nat) : val (bytesOf n v) = v % 256 ^ n := by
  induction n generalizing v with
  | zero => simp [bytesOf, Nat.mod_one]
  | succ n ih =>
    rw [bytesOf, val_cons, ih, toNat_digit, Nat.pow_succ, Nat.mul_comm (256 ^ n), Nat.mod_mul]

@[simp] theorem incrementDigits_length (carry : Nat) (xs : List Byte) :
    (incrementDigits carry xs).length = xs.length := by
  induction xs generalizing carry with
  | nil => rfl
  | cons x xs ih => simp [incrementDigits, ih]

/-- The loop invariant of INCREMENT at its end (42_increment.md R120). -/
theorem val_incrementDigits (carry : Nat) (xs : List Byte) :
    val (incrementDigits carry xs) = (val xs + carry) % 256 ^ xs.length := by
  induction xs generalizing carry with
  | nil => simp [incrementDigits, Nat.mod_one]
  | cons x xs ih =>
    have hq : (x.toNat + 256 * val xs + carry) / 256 = val xs + (x.toNat + carry) / 256 := by omega
    have hm : (x.toNat + 256 * val xs + carry) % 256 = (x.toNat + carry) % 256 := by omega
    simp only [incrementDigits]
    rw [val_cons, ih, toNat_digit, val_cons, List.length_cons, Nat.pow_succ, Nat.mul_comm (256 ^ xs.length),
      Nat.mod_mul, hq, hm]

@[simp] theorem addDigits_length (carry : Nat) {xs ys : List Byte} (h : xs.length = ys.length) :
    (addDigits carry xs ys).length = xs.length := by
  induction xs generalizing carry ys with
  | nil => cases ys <;> rfl
  | cons x xs ih =>
    cases ys with
    | nil => simp at h
    | cons y ys => simp [addDigits, ih _ (by simpa using h)]

/-- The loop invariant of ADD at its end (43_add_subtract.md R130). -/
theorem val_addDigits (carry : Nat) {xs ys : List Byte} (h : xs.length = ys.length) :
    val (addDigits carry xs ys) = (val xs + val ys + carry) % 256 ^ xs.length := by
  induction xs generalizing carry ys with
  | nil => cases ys <;> simp [addDigits, Nat.mod_one]
  | cons x xs ih =>
    cases ys with
    | nil => simp at h
    | cons y ys =>
      have hq : (x.toNat + 256 * val xs + (y.toNat + 256 * val ys) + carry) / 256 =
          val xs + val ys + (x.toNat + y.toNat + carry) / 256 := by omega
      have hm : (x.toNat + 256 * val xs + (y.toNat + 256 * val ys) + carry) % 256 =
          (x.toNat + y.toNat + carry) % 256 := by omega
      simp only [addDigits]
      rw [val_cons, ih _ (by simpa using h), toNat_digit, val_cons, val_cons, List.length_cons, Nat.pow_succ,
        Nat.mul_comm (256 ^ xs.length), Nat.mod_mul, hq, hm]

@[simp] theorem subtractDigits_length (borrow : Nat) {xs ys : List Byte} (h : xs.length = ys.length) :
    (subtractDigits borrow xs ys).length = xs.length := by
  induction xs generalizing borrow ys with
  | nil => cases ys <;> rfl
  | cons x xs ih =>
    cases ys with
    | nil => simp at h
    | cons y ys => simp [subtractDigits, ih _ (by simpa using h)]

/-- The loop invariant of SUBTRACT at its end, with the final borrow (43_add_subtract.md R135). -/
theorem val_subtractDigits_borrow {borrow : Nat} (hb : borrow ≤ 1) {xs ys : List Byte} (h : xs.length = ys.length) :
    ∃ out ≤ 1, val (subtractDigits borrow xs ys) + val ys + borrow = val xs + out * 256 ^ xs.length := by
  induction xs generalizing borrow ys with
  | nil =>
    cases ys with
    | nil => exact ⟨borrow, hb, by simp [subtractDigits]⟩
    | cons y ys => simp at h
  | cons x xs ih =>
    cases ys with
    | nil => simp at h
    | cons y ys =>
      have hx := x.isLt
      have hy := y.isLt
      by_cases hd : (x.toNat : Int) - (y.toNat : Int) - (borrow : Int) < 0
      · obtain ⟨out, ho, hv⟩ := ih (borrow := 1) le_rfl (ys := ys) (by simpa using h)
        refine ⟨out, ho, ?_⟩
        have hdig : (BitVec.ofInt 8 ((x.toNat : Int) - (y.toNat : Int) - (borrow : Int))).toNat =
            x.toNat + 256 - y.toNat - borrow := by
          rw [BitVec.toNat_ofInt]
          omega
        simp only [subtractDigits, if_pos hd]
        rw [val_cons, hdig, val_cons, val_cons, List.length_cons, Nat.pow_succ, ← Nat.mul_assoc]
        omega
      · obtain ⟨out, ho, hv⟩ := ih (borrow := 0) (Nat.zero_le 1) (ys := ys) (by simpa using h)
        refine ⟨out, ho, ?_⟩
        have hdig : (BitVec.ofInt 8 ((x.toNat : Int) - (y.toNat : Int) - (borrow : Int))).toNat =
            x.toNat - y.toNat - borrow := by
          rw [BitVec.toNat_ofInt]
          omega
        simp only [subtractDigits, if_neg hd]
        rw [val_cons, hdig, val_cons, val_cons, List.length_cons, Nat.pow_succ, ← Nat.mul_assoc]
        omega

/-- What SUBTRACT computes (43_add_subtract.md R135, R138). -/
theorem val_subtractDigits {xs ys : List Byte} (h : xs.length = ys.length) :
    val (subtractDigits 0 xs ys) = (val xs + (256 ^ xs.length - val ys)) % 256 ^ xs.length := by
  obtain ⟨out, ho, hv⟩ := val_subtractDigits_borrow (Nat.zero_le 1) h
  have h1 := val_lt (subtractDigits 0 xs ys)
  rw [subtractDigits_length 0 h] at h1
  have h2 := val_lt xs
  have h3 := val_lt ys
  rw [← h] at h3
  generalize 256 ^ xs.length = M at *
  rcases Nat.le_one_iff_eq_zero_or_eq_one.1 ho with rfl | rfl
  · have : val xs + (M - val ys) = val (subtractDigits 0 xs ys) + M := by omega
    rw [this, Nat.add_mod_right, Nat.mod_eq_of_lt h1]
  · have : val xs + (M - val ys) = val (subtractDigits 0 xs ys) := by omega
    rw [this, Nat.mod_eq_of_lt h1]

/-- The accumulator of EQUALS ends at zero exactly when it began there and no digit differs (40_equals_iszero.md R100). -/
theorem differenceOf_eq_zero {acc : Byte} {xs ys : List Byte} (h : xs.length = ys.length) :
    differenceOf acc xs ys = 0 ↔ acc = 0 ∧ xs = ys := by
  induction xs generalizing acc ys with
  | nil =>
    cases ys with
    | nil => simp [differenceOf]
    | cons y ys => simp at h
  | cons x xs ih =>
    cases ys with
    | nil => simp at h
    | cons y ys =>
      have hz : (0 : Byte) = 0#8 := rfl
      rw [differenceOf, ih (by simpa using h), hz, BitVec.or_eq_zero_iff, BitVec.xor_eq_zero_iff, List.cons.injEq,
        and_assoc]

theorem digitsEqual_iff {xs ys : List Byte} (h : xs.length = ys.length) : digitsEqual xs ys = true ↔ xs = ys := by
  rw [digitsEqual, beq_iff_eq, differenceOf_eq_zero h]
  simp

/-- The accumulator of ISZERO ends at zero exactly when it began there and every digit is zero (40_equals_iszero.md
R104). -/
theorem unionOf_eq_zero {acc : Byte} {xs : List Byte} : unionOf acc xs = 0 ↔ acc = 0 ∧ ∀ x ∈ xs, x = 0 := by
  induction xs generalizing acc with
  | nil => simp [unionOf]
  | cons x xs ih =>
    have hz : (0 : Byte) = 0#8 := rfl
    rw [unionOf, ih, hz, BitVec.or_eq_zero_iff, List.forall_mem_cons, and_assoc]

theorem digitsZero_iff {xs : List Byte} : digitsZero xs = true ↔ ∀ x ∈ xs, x = 0 := by
  rw [digitsZero, beq_iff_eq, unionOf_eq_zero]
  simp

/-- Every digit is zero exactly when the number is (44_arithmetic_laws.md R153). -/
theorem val_eq_zero_iff {xs : List Byte} : val xs = 0 ↔ ∀ x ∈ xs, x = 0 := by
  induction xs with
  | nil => simp
  | cons x xs ih =>
    rw [val_cons, List.forall_mem_cons, ← ih, ← BitVec.toNat_inj]
    simp

theorem compare_nat (m n : Nat) : compare m n = if m < n then .lt else if m = n then .eq else .gt := rfl

/-- One more digit below: it decides only where the higher ones agree (41_compare.md R110). -/
theorem scanDown_append {as bs : List Byte} (h : as.length = bs.length) (x y : Byte) :
    scanDown (as ++ [x]) (bs ++ [y]) = (scanDown as bs).then (compare x.toNat y.toNat) := by
  induction as generalizing bs with
  | nil =>
    cases bs with
    | nil =>
      simp only [List.nil_append, scanDown, compare_nat]
      split_ifs <;> first | rfl | omega
    | cons b bs => simp at h
  | cons a as ih =>
    cases bs with
    | nil => simp at h
    | cons b bs =>
      simp only [List.cons_append, scanDown]
      split_ifs
      · rfl
      · rfl
      · exact ih (by simpa using h)

/-- The scan gives the numeric order (41_compare.md R111). -/
theorem digitsCompare_eq {xs ys : List Byte} (h : xs.length = ys.length) :
    digitsCompare xs ys = compare (val xs) (val ys) := by
  induction xs generalizing ys with
  | nil =>
    cases ys with
    | nil => rfl
    | cons y ys => simp at h
  | cons x xs ih =>
    cases ys with
    | nil => simp at h
    | cons y ys =>
      have hx := x.isLt
      have hy := y.isLt
      have hl : xs.length = ys.length := by simpa using h
      have step := scanDown_append (as := xs.reverse) (bs := ys.reverse) (by simpa using hl) x y
      rw [digitsCompare, List.reverse_cons, List.reverse_cons, step, ← digitsCompare, ih hl, val_cons, val_cons]
      simp only [compare_nat]
      split_ifs <;> first | rfl | omega

end Sys2Proof.Machine
end

