-- ==== Sys2Proof/Laws/State.lean ====
section
/-!
SUPPORT. One lemma per field per update of State, and the small lemmas of the plain operations over it.
-/

namespace Sys2Proof.Machine

@[simp] theorem State.deliver_mem (s : State) (r : RspWord) : (s.deliver r).mem = s.mem := rfl
@[simp] theorem State.deliver_holes (s : State) (r : RspWord) : (s.deliver r).holes = s.holes := rfl
@[simp] theorem State.deliver_inputs (s : State) (r : RspWord) : (s.deliver r).inputs = s.inputs := rfl
@[simp] theorem State.deliver_responses (s : State) (r : RspWord) :
    (s.deliver r).responses = s.responses ++ [r] := rfl

@[simp] theorem State.withMem_mem (s : State) (m : Memory) : (s.withMem m).mem = m := rfl
@[simp] theorem State.withMem_holes (s : State) (m : Memory) : (s.withMem m).holes = s.holes := rfl
@[simp] theorem State.withMem_inputs (s : State) (m : Memory) : (s.withMem m).inputs = s.inputs := rfl
@[simp] theorem State.withMem_responses (s : State) (m : Memory) : (s.withMem m).responses = s.responses := rfl

@[simp] theorem State.store_mem (s : State) (x : Buffer) (ds : List Byte) :
    (s.store x ds).mem = s.mem.writeRange x.base ds := rfl
@[simp] theorem State.store_holes (s : State) (x : Buffer) (ds : List Byte) : (s.store x ds).holes = s.holes := rfl
@[simp] theorem State.store_inputs (s : State) (x : Buffer) (ds : List Byte) : (s.store x ds).inputs = s.inputs := rfl
@[simp] theorem State.store_responses (s : State) (x : Buffer) (ds : List Byte) :
    (s.store x ds).responses = s.responses := rfl

@[simp] theorem State.placeInput_mem (s : State) (e : Event) : (s.placeInput e).mem = s.mem := rfl
@[simp] theorem State.placeInput_holes (s : State) (e : Event) : (s.placeInput e).holes = s.holes := rfl
@[simp] theorem State.placeInput_inputs (s : State) (e : Event) : (s.placeInput e).inputs = e :: s.inputs := rfl
@[simp] theorem State.placeInput_responses (s : State) (e : Event) : (s.placeInput e).responses = s.responses := rfl

/-- ValidAddr is a matter of the platform alone. -/
theorem State.validAddr_congr {s t : State} (h : s.holes = t.holes) (addr : Nat) :
    s.validAddr addr = t.validAddr addr := by simp [State.validAddr, h]

theorem State.validRange_congr {s t : State} (h : s.holes = t.holes) (base len : Nat) :
    s.validRange base len = t.validRange base len := by simp [State.validRange, h]

@[simp] theorem State.validRange_deliver (s : State) (r : RspWord) (base len : Nat) :
    (s.deliver r).validRange base len = s.validRange base len := rfl
@[simp] theorem State.validRange_withMem (s : State) (m : Memory) (base len : Nat) :
    (s.withMem m).validRange base len = s.validRange base len := rfl
@[simp] theorem State.validRange_store (s : State) (x : Buffer) (ds : List Byte) (base len : Nat) :
    (s.store x ds).validRange base len = s.validRange base len := rfl
@[simp] theorem State.validAddr_deliver (s : State) (r : RspWord) (addr : Nat) :
    (s.deliver r).validAddr addr = s.validAddr addr := rfl
@[simp] theorem State.validAddr_withMem (s : State) (m : Memory) (addr : Nat) :
    (s.withMem m).validAddr addr = s.validAddr addr := rfl
@[simp] theorem State.validAddr_store (s : State) (x : Buffer) (ds : List Byte) (addr : Nat) :
    (s.store x ds).validAddr addr = s.validAddr addr := rfl

@[simp] theorem andThen_next (s : State) (k : State → Answer) : andThen (.next s) k = k s := rfl
@[simp] theorem andThen_fault (f : Fault) (k : State → Answer) : andThen (.fault f) k = .fault f := rfl
@[simp] theorem andThen_refused (r : Refusal) (k : State → Answer) : andThen (.refused r) k = .refused r := rfl

/-- An answer passed on is a next state only through one. -/
theorem andThen_eq_next {o : Answer} {k : State → Answer} {t : State} (h : andThen o k = .next t) :
    ∃ u, o = .next u ∧ k u = .next t := by
  cases o with
  | next u => exact ⟨u, rfl, h⟩
  | fault f => cases h
  | refused r => cases h

/-- A range is in ValidAddr exactly when each of its bytes is (20_memory.md R44). -/
theorem State.validRange_iff (s : State) (base len : Nat) :
    s.validRange base len = true ↔ ∀ addr, base ≤ addr → addr < base + len → s.validAddr addr = true := by
  simp only [State.validRange, State.validAddr, Region.apart, Region.contains, Bool.or_eq_true, Bool.and_eq_true,
    decide_eq_true_eq, List.all_eq_true, Bool.not_eq_true', Bool.and_eq_false_iff, decide_eq_false_iff_not]
  constructor
  · rintro (h | ⟨h, hr⟩) addr h1 h2
    · omega
    · refine ⟨by omega, fun r hm => ?_⟩
      have := hr r hm
      omega
  · intro h
    by_cases h0 : len = 0
    · exact .inl h0
    · have hTop := (h (base + len - 1) (by omega) (by omega)).1
      refine .inr ⟨by omega, fun r hm => ?_⟩
      by_contra hc
      have := (h (max base r.base) (by omega) (by omega)).2 r hm
      omega

end Sys2Proof.Machine
end

