-- ==== Sys2Proof/Laws/Memory.lean ====
section
/-!
SUPPORT. The laws of buffer memory: what a read gives after each operation, and that every operation keeps the
canonical form.
-/

namespace Sys2Proof.Machine

@[simp] theorem Memory.read_nil (addr : Nat) : Memory.read [] addr = none := rfl

theorem Memory.read_cons (k : Nat) (v : Byte) (m : Memory) (addr : Nat) :
    Memory.read ((k, v) :: m) addr = if k = addr then some v else Memory.read m addr := rfl

/-- A read after a write: the byte written at its address, what was there at every other. -/
theorem Memory.read_write (m : Memory) (addr other : Nat) (b : Byte) :
    (m.write addr b).read other = if other = addr then some b else m.read other := by
  induction m with
  | nil => simp [Memory.write, Memory.read_cons, eq_comm]
  | cons c m ih =>
    obtain ⟨k, v⟩ := c
    simp only [Memory.write]
    split_ifs <;> simp only [Memory.read_cons, ih] <;> split_ifs <;> first | rfl | omega

@[simp] theorem Memory.read_write_same (m : Memory) (addr : Nat) (b : Byte) :
    (m.write addr b).read addr = some b := by simp [Memory.read_write]

theorem Memory.read_write_other (m : Memory) {addr other : Nat} (b : Byte) (h : other ≠ addr) :
    (m.write addr b).read other = m.read other := by simp [Memory.read_write, h]

/-- The addresses listed after a write are those before it and the one written. -/
theorem Memory.mem_write {m : Memory} {addr : Nat} {b : Byte} {c : Host.Cell} (h : c ∈ m.write addr b) :
    c = (addr, b) ∨ c ∈ m := by
  induction m with
  | nil => simpa [Memory.write] using h
  | cons d m ih =>
    obtain ⟨k, v⟩ := d
    simp only [Memory.write] at h
    split_ifs at h <;> simp only [List.mem_cons] at h ⊢ <;> tauto

/-- A write keeps the canonical form. -/
theorem Memory.wf_write {m : Memory} (addr : Nat) (b : Byte) (h : m.wf) (ha : addr < Config.addrSpace) :
    (m.write addr b).wf := by
  refine ⟨?_, fun c hc => ?_⟩
  · have hp := h.1
    clear h
    induction m with
    | nil => simp [Memory.write]
    | cons d m ih =>
      obtain ⟨k, v⟩ := d
      rw [List.pairwise_cons] at hp
      simp only [Memory.write]
      split_ifs with h1 h2
      · subst h1
        exact List.pairwise_cons.2 ⟨hp.1, hp.2⟩
      · refine List.pairwise_cons.2 ⟨fun c hc => ?_, List.pairwise_cons.2 hp⟩
        rcases List.mem_cons.1 hc with rfl | hc
        · exact h2
        · exact lt_trans h2 (hp.1 c hc)
      · refine List.pairwise_cons.2 ⟨fun c hc => ?_, ih hp.2⟩
        rcases Memory.mem_write hc with rfl | hc
        · show k < addr
          omega
        · exact hp.1 c hc
  · rcases Memory.mem_write hc with rfl | hc
    · exact ha
    · exact h.2 c hc

/-- A read after a range was written. -/
theorem Memory.read_writeRange (bs : List Byte) (m : Memory) (base other : Nat) :
    (m.writeRange base bs).read other =
      if base ≤ other ∧ other < base + bs.length then bs[other - base]? else m.read other := by
  induction bs generalizing m base with
  | nil =>
    have : ¬(base ≤ other ∧ other < base + ([] : List Byte).length) := by
      rw [List.length_nil]
      omega
    simp only [if_neg this, Memory.writeRange]
  | cons b bs ih =>
    simp only [Memory.writeRange, ih, Memory.read_write, List.length_cons]
    by_cases h0 : other = base
    · subst h0
      simp
    · by_cases h1 : base + 1 ≤ other ∧ other < base + 1 + bs.length
      · have h2 : base ≤ other ∧ other < base + (bs.length + 1) := by omega
        have h3 : other - base = (other - (base + 1)) + 1 := by omega
        simp only [if_pos h1, if_pos h2, h3, List.getElem?_cons_succ]
      · have h2 : ¬(base ≤ other ∧ other < base + (bs.length + 1)) := by omega
        simp only [if_neg h1, if_neg h2, if_neg h0]

/-- Outside the range nothing changes. -/
theorem Memory.read_writeRange_outside (bs : List Byte) (m : Memory) {base other : Nat}
    (h : other < base ∨ base + bs.length ≤ other) : (m.writeRange base bs).read other = m.read other := by
  rw [Memory.read_writeRange, if_neg (by omega)]

theorem Memory.mem_writeRange {bs : List Byte} {m : Memory} {base : Nat} {c : Host.Cell}
    (h : c ∈ m.writeRange base bs) : (base ≤ c.1 ∧ c.1 < base + bs.length) ∨ c ∈ m := by
  induction bs generalizing m base with
  | nil => exact .inr h
  | cons b bs ih =>
    rcases ih (m := m.write base b) h with h | h
    · exact .inl (by simp only [List.length_cons]; omega)
    · rcases Memory.mem_write h with rfl | h
      · exact .inl (by simp)
      · exact .inr h

theorem Memory.wf_writeRange (bs : List Byte) {m : Memory} {base : Nat} (h : m.wf)
    (hr : base + bs.length ≤ Config.addrSpace) : (m.writeRange base bs).wf := by
  induction bs generalizing m base with
  | nil => exact h
  | cons b bs ih =>
    simp only [List.length_cons] at hr
    exact ih (Memory.wf_write _ _ h (by omega)) (by omega)

/-- What reading a range says of each of its bytes. -/
theorem Memory.readRange_eq_some {m : Memory} {base n : Nat} {xs : List Byte} :
    m.readRange base n = some xs ↔ xs.length = n ∧ ∀ k, k < n → m.read (base + k) = xs[k]? := by
  induction n generalizing base xs with
  | zero =>
    simp only [Memory.readRange, Option.some.injEq, List.length_eq_zero_iff, Nat.not_lt_zero, false_implies,
      implies_true, and_true]
    exact eq_comm
  | succ n ih =>
    simp only [Memory.readRange]
    constructor
    · intro h
      split at h
      · cases h
      · rename_i b hb
        split at h
        · cases h
        · rename_i bs hbs
          obtain ⟨hl, hk⟩ := ih.1 hbs
          cases h
          refine ⟨by simp [hl], fun k hkn => ?_⟩
          cases k with
          | zero => simpa using hb
          | succ k =>
            rw [List.getElem?_cons_succ, ← hk k (by omega)]
            congr 1
            omega
    · rintro ⟨hl, hk⟩
      cases xs with
      | nil => simp at hl
      | cons b bs =>
        have h0 := hk 0 (by omega)
        simp only [Nat.add_zero, List.getElem?_cons_zero] at h0
        have hrest : m.readRange (base + 1) n = some bs := by
          refine ih.2 ⟨by simpa using hl, fun k hkn => ?_⟩
          have := hk (k + 1) (by omega)
          rw [List.getElem?_cons_succ] at this
          rw [← this]
          congr 1
          omega
        simp [h0, hrest]

theorem Memory.readRange_length {m : Memory} {base n : Nat} {xs : List Byte} (h : m.readRange base n = some xs) :
    xs.length = n := (Memory.readRange_eq_some.1 h).1

/-- A range reads the same in two memories that agree on it. -/
theorem Memory.readRange_congr {m m' : Memory} {base n : Nat}
    (h : ∀ addr, base ≤ addr → addr < base + n → m.read addr = m'.read addr) :
    m.readRange base n = m'.readRange base n := by
  induction n generalizing base with
  | zero => rfl
  | succ n ih =>
    have hrest := ih (base := base + 1) fun a h1 h2 => h a (by omega) (by omega)
    simp only [Memory.readRange, h base (by omega) (by omega), hrest]

/-- A range cannot be read exactly when one of its bytes was never written. -/
theorem Memory.readRange_eq_none {m : Memory} {base n : Nat} :
    m.readRange base n = none ↔ ∃ addr, base ≤ addr ∧ addr < base + n ∧ m.read addr = none := by
  induction n generalizing base with
  | zero => exact ⟨fun h => (by cases h), fun ⟨a, h1, h2, _⟩ => (by omega)⟩
  | succ n ih =>
    simp only [Memory.readRange]
    cases hb : m.read base with
    | none => exact ⟨fun _ => ⟨base, by omega, by omega, hb⟩, fun _ => rfl⟩
    | some b =>
      cases hr : m.readRange (base + 1) n with
      | none =>
        obtain ⟨a, h1, h2, h3⟩ := ih.1 hr
        exact ⟨fun _ => ⟨a, by omega, by omega, h3⟩, fun _ => rfl⟩
      | some bs =>
        refine ⟨fun h => (by cases h), fun ⟨a, h1, h2, h3⟩ => ?_⟩
        by_cases ha : a = base
        · subst ha
          simp [hb] at h3
        · rw [ih.2 ⟨a, (by omega : base + 1 ≤ a), (by omega : a < base + 1 + n), h3⟩] at hr
          cases hr

/-- A range reads as what was written to it. -/
theorem Memory.readRange_writeRange (m : Memory) (base : Nat) (bs : List Byte) :
    (m.writeRange base bs).readRange base bs.length = some bs := by
  refine Memory.readRange_eq_some.2 ⟨rfl, fun k hk => ?_⟩
  rw [Memory.read_writeRange, if_pos (by omega)]
  congr 1
  omega

/-- A range apart from the one written reads as before. -/
theorem Memory.readRange_writeRange_apart (m : Memory) {base base' n : Nat} (bs : List Byte)
    (h : n = 0 ∨ bs.length = 0 ∨ base' + n ≤ base ∨ base + bs.length ≤ base') :
    (m.writeRange base bs).readRange base' n = m.readRange base' n :=
  Memory.readRange_congr fun a h1 h2 => Memory.read_writeRange_outside _ _ (by omega)

theorem Memory.read_forgetRange (m : Memory) (base len addr : Nat) :
    (m.forgetRange base len).read addr = if base ≤ addr ∧ addr < base + len then none else m.read addr := by
  induction m with
  | nil => simp [Memory.forgetRange]
  | cons c m ih =>
    obtain ⟨k, v⟩ := c
    simp only [Memory.forgetRange, List.filter_cons, Bool.or_eq_true, decide_eq_true_eq] at ih ⊢
    split_ifs <;> simp only [Memory.read_cons, ih] <;> split_ifs <;> first | rfl | omega

theorem Memory.wf_forgetRange {m : Memory} (base len : Nat) (h : m.wf) : (m.forgetRange base len).wf :=
  ⟨h.1.filter _, fun c hc => h.2 c (List.mem_of_mem_filter hc)⟩

theorem Memory.read_lt {m : Memory} {k addr : Nat} {v : Byte}
    (h : ((k, v) :: m).Pairwise (fun c d : Host.Cell => c.1 < d.1)) (hle : addr ≤ k) : m.read addr = none := by
  have h1 := (List.pairwise_cons.1 h).1
  clear h
  induction m with
  | nil => rfl
  | cons c m ih =>
    obtain ⟨k', v'⟩ := c
    have := h1 (k', v') (by simp)
    rw [Memory.read_cons, if_neg (by simp only at this; omega)]
    exact ih fun c hc => h1 c (by simp [hc])

/-- Two memories in canonical form that read the same everywhere are the same data. -/
theorem Memory.ext_read {m m' : Memory} (h : m.wf) (h' : m'.wf) (hr : ∀ addr, m.read addr = m'.read addr) :
    m = m' := by
  have p := h.1
  have p' := h'.1
  clear h h'
  induction m generalizing m' with
  | nil =>
    cases m' with
    | nil => rfl
    | cons c m' =>
      obtain ⟨k, v⟩ := c
      have := hr k
      simp [Memory.read_cons] at this
  | cons c m ih =>
    obtain ⟨k, v⟩ := c
    cases m' with
    | nil =>
      have := hr k
      simp [Memory.read_cons] at this
    | cons c' m' =>
      obtain ⟨k', v'⟩ := c'
      have hk : k = k' := by
        rcases lt_trichotomy k k' with hlt | heq | hlt
        · have := hr k
          rw [Memory.read_cons, if_pos rfl, Memory.read_cons, if_neg (by omega), Memory.read_lt p' hlt.le] at this
          cases this
        · exact heq
        · have := hr k'
          rw [Memory.read_cons, if_neg (by omega), Memory.read_lt p hlt.le, Memory.read_cons, if_pos rfl] at this
          cases this
      subst hk
      have hv := hr k
      simp only [Memory.read_cons, if_pos] at hv
      cases hv
      congr 1
      refine ih (fun addr => ?_) (List.pairwise_cons.1 p).2 (List.pairwise_cons.1 p').2
      by_cases ha : k = addr
      · subst ha
        rw [Memory.read_lt p le_rfl, Memory.read_lt p' le_rfl]
      · have := hr addr
        simpa only [Memory.read_cons, if_neg ha] using this

end Sys2Proof.Machine
end

