-- ==== Sys2Proof/Laws/Exec.lean ====
section
/-!
SUPPORT. What each shared operation can do, once: the checks (60_exceptions.md R176), ValidAddr, reading operands, a whole command,
an access of another agent.
-/

namespace Sys2Proof.Machine

@[simp] theorem checked_nil (s : State) (run : State → Answer) : checked [] s run = run s := rfl
@[simp] theorem checked_none (cs : List (Option Status)) (s : State) (run : State → Answer) :
    checked (none :: cs) s run = checked cs s run := rfl
@[simp] theorem checked_some (st : Status) (cs : List (Option Status)) (s : State) (run : State → Answer) :
    checked (some st :: cs) s run = raise st s := rfl

/-- Either every check passes and the operation runs, or the first that fails is answered. -/
theorem checked_cases (cs : List (Option Status)) (s : State) (run : State → Answer) :
    ((∀ c ∈ cs, c = none) ∧ checked cs s run = run s) ∨ ∃ st, some st ∈ cs ∧ checked cs s run = raise st s := by
  induction cs with
  | nil => exact .inl ⟨by simp, rfl⟩
  | cons c cs ih =>
    cases c with
    | some st => exact .inr ⟨st, by simp, rfl⟩
    | none =>
      rcases ih with ⟨h, he⟩ | ⟨st, h, he⟩
      · exact .inl ⟨by simpa using h, he⟩
      · exact .inr ⟨st, by simp [h], he⟩

/-- Two ranges of one length partially overlap exactly when they differ and neither ends before the other begins
(20_memory.md R61). -/
theorem partialOverlap_iff {a b : Buffer} : partialOverlap a b = true ↔
    a.base ≠ b.base ∧ a.base < b.base + a.len ∧ b.base < a.base + a.len := by
  rw [partialOverlap, Bool.and_eq_true, decide_eq_true_iff, decide_eq_true_iff, absDiff]
  omega

theorem checkRange_of_inRange {x : Buffer} (h : inRange x = true) : checkRange x = none := by simp [checkRange, h]
theorem checkRange_of_not {x : Buffer} (h : inRange x = false) : checkRange x = some .badCommand := by
  simp [checkRange, h]
theorem checkLengths_of_eq {a b : Buffer} (h : a.len = b.len) : checkLengths a b = none := by simp [checkLengths, h]
theorem checkLengths_of_ne {a b : Buffer} (h : a.len ≠ b.len) : checkLengths a b = some .lengthMismatch := by
  simp [checkLengths, h]
theorem checkOverlap_of_not {a b : Buffer} (h : partialOverlap a b = false) : checkOverlap a b = none := by
  simp [checkOverlap, h]
theorem checkOverlap_of {a b : Buffer} (h : partialOverlap a b = true) : checkOverlap a b = some .badCommand := by
  simp [checkOverlap, h]

/-- No check answers OK. -/
theorem checkRange_ne_ok {x : Buffer} {st : Status} (h : checkRange x = some st) : st ≠ .ok := by
  rw [checkRange] at h
  split at h <;> cases h
  simp

theorem checkLengths_ne_ok {a b : Buffer} {st : Status} (h : checkLengths a b = some st) : st ≠ .ok := by
  rw [checkLengths] at h
  split at h <;> cases h
  simp

theorem checkOverlap_ne_ok {a b : Buffer} {st : Status} (h : checkOverlap a b = some st) : st ≠ .ok := by
  rw [checkOverlap] at h
  split at h <;> cases h
  simp

@[simp] theorem State.validBuffers_nil (s : State) : s.validBuffers [] = true := rfl
@[simp] theorem State.validBuffers_cons (s : State) (x : Buffer) (xs : List Buffer) :
    s.validBuffers (x :: xs) = (s.validRange x.base x.len && s.validBuffers xs) := rfl

/-- ValidAddr is asked of each buffer. -/
theorem State.validBuffers_iff {s : State} {xs : List Buffer} :
    s.validBuffers xs = true ↔ ∀ x ∈ xs, s.validRange x.base x.len = true := by
  simp [State.validBuffers]

/-- An operation runs where each buffer it names is in range and in ValidAddr. -/
theorem located_of_placed {xs : List Buffer} {s : State} (h : ∀ x ∈ xs, Placed s x) (run : State → Answer) :
    located xs s run = run s := by
  have hv : s.validBuffers xs = true := State.validBuffers_iff.2 fun x hx => (h x hx).2
  rcases checked_cases (xs.map checkRange) s fun s =>
    if s.validBuffers xs then run s else .refused .outsideValidAddr with ⟨-, he⟩ | ⟨st, hst, -⟩
  · rw [located, he, if_pos hv]
  · obtain ⟨x, hx, hc⟩ := List.mem_map.1 hst
    rw [checkRange_of_inRange (h x hx).1] at hc
    cases hc

/-- All that locating the buffers a command names can do: each is in range and in ValidAddr and the operation runs; or one
is out of range and the command ends with BadCommand (60_exceptions.md R174, cases 3 and 4); or each is in range, one is
not in ValidAddr, and the command is refused (20_memory.md R44). -/
theorem located_cases (xs : List Buffer) (s : State) (run : State → Answer) :
    ((∀ x ∈ xs, Placed s x) ∧ located xs s run = run s) ∨
      ((∃ x ∈ xs, inRange x = false) ∧ located xs s run = raise .badCommand s) ∨
      ((∀ x ∈ xs, inRange x = true) ∧ (∃ x ∈ xs, s.validRange x.base x.len = false) ∧
        located xs s run = .refused .outsideValidAddr) := by
  rcases checked_cases (xs.map checkRange) s fun s =>
    if s.validBuffers xs then run s else .refused .outsideValidAddr with ⟨hc, he⟩ | ⟨st, hst, he⟩
  · have hr : ∀ x ∈ xs, inRange x = true := fun x hx => by
      have hx' := hc _ (List.mem_map_of_mem hx)
      by_contra hn
      simp [checkRange, hn] at hx'
    by_cases hv : s.validBuffers xs = true
    · exact .inl ⟨fun x hx => ⟨hr x hx, State.validBuffers_iff.1 hv x hx⟩, by rw [located, he, if_pos hv]⟩
    · refine .inr (.inr ⟨hr, ?_, by rw [located, he, if_neg hv]⟩)
      by_contra hn
      push Not at hn
      exact hv (State.validBuffers_iff.2 fun x hx => by simpa using hn x hx)
  · obtain ⟨x, hx, hst⟩ := List.mem_map.1 hst
    cases hr : inRange x with
    | true => simp [checkRange, hr] at hst
    | false =>
      simp [checkRange, hr] at hst
      subst hst
      exact .inr (.inl ⟨⟨x, hx, hr⟩, he⟩)

/-- A command that names a buffer past the top of memory ends with BadCommand (20_memory.md R43). -/
theorem located_of_past_top {xs : List Buffer} {s : State} {x : Buffer} (hx : x ∈ xs) (h : inRange x = false)
    (run : State → Answer) : located xs s run = raise .badCommand s := by
  rcases located_cases xs s run with ⟨hp, -⟩ | ⟨-, he⟩ | ⟨hp, -⟩
  · simp [(hp x hx).1] at h
  · exact he
  · simp [hp x hx] at h

/-- A command whose buffers are in range and that names a byte outside ValidAddr is refused (20_memory.md R44). -/
theorem located_of_outside {xs : List Buffer} {s : State} {x : Buffer} (hr : ∀ y ∈ xs, inRange y = true)
    (hx : x ∈ xs) (h : s.validRange x.base x.len = false) (run : State → Answer) :
    located xs s run = .refused .outsideValidAddr := by
  rcases located_cases xs s run with ⟨hp, -⟩ | ⟨⟨y, hy, hn⟩, -⟩ | ⟨-, -, he⟩
  · simp [(hp x hx).2] at h
  · simp [hr y hy] at hn
  · exact he

/-- Reading a buffer for which the caller kept its duties. -/
theorem withBuffer_of_holds {s : State} {x : Buffer} {xs : List Byte} (h : Holds s x xs) (use : List Byte → Answer) :
    withBuffer x s use = use xs := by simp [withBuffer, h.2.2]

theorem withBuffers_of_holds {s : State} {a b : Buffer} {xs ys : List Byte} (ha : Holds s a xs) (hb : Holds s b ys)
    (use : List Byte → List Byte → Answer) : withBuffers a b s use = use xs ys := by
  simp [withBuffers, withBuffer_of_holds ha, withBuffer_of_holds hb]

/-- All that reading a buffer can do. -/
theorem withBuffer_cases (x : Buffer) (s : State) (use : List Byte → Answer) :
    (∃ xs, s.mem.readRange x.base x.len = some xs ∧ withBuffer x s use = use xs) ∨
      (s.mem.readRange x.base x.len = none ∧ withBuffer x s use = .fault .unwrittenByte) := by
  rw [withBuffer]
  cases s.mem.readRange x.base x.len with
  | none => exact .inr ⟨rfl, rfl⟩
  | some xs => exact .inl ⟨xs, rfl, rfl⟩

/-- All that reading two buffers can do. -/
theorem withBuffers_cases (a b : Buffer) (s : State) (use : List Byte → List Byte → Answer) :
    (∃ xs ys, s.mem.readRange a.base a.len = some xs ∧ s.mem.readRange b.base b.len = some ys ∧
        withBuffers a b s use = use xs ys) ∨
      ((s.mem.readRange a.base a.len = none ∨ s.mem.readRange b.base b.len = none) ∧
        withBuffers a b s use = .fault .unwrittenByte) := by
  rw [withBuffers]
  rcases withBuffer_cases a s fun xs => withBuffer b s fun ys => use xs ys with ⟨xs, hr, he⟩ | ⟨hr, he⟩
  · rcases withBuffer_cases b s fun ys => use xs ys with ⟨ys, hr', he'⟩ | ⟨hr', he'⟩
    · exact .inl ⟨xs, ys, hr, hr', he.trans he'⟩
    · exact .inr ⟨.inr hr', he.trans he'⟩
  · exact .inr ⟨.inl hr, he⟩

/-- Where a command has a next state, either its buffers are all in range and in ValidAddr and its operation gave that
state, or it was answered BadCommand. -/
theorem located_next {xs : List Buffer} {s t : State} {run : State → Answer} (h : located xs s run = .next t) :
    ((∀ x ∈ xs, Placed s x) ∧ run s = .next t) ∨ raise .badCommand s = .next t := by
  rcases located_cases xs s run with ⟨hp, he⟩ | ⟨-, he⟩ | ⟨-, -, he⟩ <;> rw [he] at h
  · exact .inl ⟨hp, h⟩
  · exact .inr h
  · cases h

/-- Where a checked command has a next state, either every check passed and its operation gave that state, or it was
answered with the status of a check. -/
theorem checked_next {cs : List (Option Status)} {s t : State} {run : State → Answer}
    (h : checked cs s run = .next t) :
    ((∀ c ∈ cs, c = none) ∧ run s = .next t) ∨ ∃ st, some st ∈ cs ∧ raise st s = .next t := by
  rcases checked_cases cs s run with ⟨hc, he⟩ | ⟨st, hst, he⟩ <;> rw [he] at h
  · exact .inl ⟨hc, h⟩
  · exact .inr ⟨st, hst, h⟩

/-- Where a command that reads buffers has a next state, every byte of them was written. -/
theorem withBuffers_next {a b : Buffer} {s t : State} {use : List Byte → List Byte → Answer}
    (h : withBuffers a b s use = .next t) :
    ∃ xs ys, s.mem.readRange a.base a.len = some xs ∧ s.mem.readRange b.base b.len = some ys ∧ use xs ys = .next t := by
  rcases withBuffers_cases a b s use with ⟨xs, ys, hr, hr', he⟩ | ⟨-, he⟩ <;> rw [he] at h
  · exact ⟨xs, ys, hr, hr', h⟩
  · cases h

theorem withBuffer_next {x : Buffer} {s t : State} {use : List Byte → Answer} (h : withBuffer x s use = .next t) :
    ∃ xs, s.mem.readRange x.base x.len = some xs ∧ use xs = .next t := by
  rcases withBuffer_cases x s use with ⟨xs, hr, he⟩ | ⟨-, he⟩ <;> rw [he] at h
  · exact ⟨xs, hr, h⟩
  · cases h

/-- All that a command can do where it has a next state: it is turned away with an error and writes nothing
(60_exceptions.md R177); or it answers a predicate and writes nothing; or it writes its one destination in place
(20_memory.md R41). -/
theorem exec_cases {i : Instr} {s t : State} (h : exec i s = .next t) :
    (∃ st, st ≠ .ok ∧ t = s.deliver (rspWord st voidResult)) ∨
      (destinationsOf i = [] ∧ ((∃ b, t = s.deliver (rspWord .ok (boolResult b))) ∨
        (∃ a b o, i = .compare a b ∧ t = s.deliver (rspWord .ok (orderResult o))))) ∨
      (∃ x ds, destinationsOf i = [x] ∧ ds.length = x.len ∧ inRange x = true ∧ s.validRange x.base x.len = true ∧
        t = (s.store x ds).deliver (rspWord .ok voidResult)) := by
  cases i with
  | equals a b =>
    rcases located_next h with ⟨-, h⟩ | h
    · split at h
      · obtain ⟨xs, ys, -, -, h⟩ := withBuffers_next h
        cases h
        exact .inr (.inl ⟨rfl, .inl ⟨_, rfl⟩⟩)
      · cases h
        exact .inr (.inl ⟨rfl, .inl ⟨_, rfl⟩⟩)
    · cases h
      exact .inl ⟨.badCommand, by simp, rfl⟩
  | iszero a =>
    rcases located_next h with ⟨-, h⟩ | h
    · obtain ⟨xs, -, h⟩ := withBuffer_next h
      cases h
      exact .inr (.inl ⟨rfl, .inl ⟨_, rfl⟩⟩)
    · cases h
      exact .inl ⟨.badCommand, by simp, rfl⟩
  | compare a b =>
    rcases located_next h with ⟨-, h⟩ | h
    · rcases checked_next h with ⟨-, h⟩ | ⟨st, hst, h⟩
      · obtain ⟨xs, ys, -, -, h⟩ := withBuffers_next h
        cases h
        exact .inr (.inl ⟨rfl, .inr ⟨a, b, _, rfl, rfl⟩⟩)
      · cases h
        exact .inl ⟨st, checkLengths_ne_ok (List.mem_singleton.1 hst).symm, rfl⟩
    · cases h
      exact .inl ⟨.badCommand, by simp, rfl⟩
  | increment a amount =>
    rcases located_next h with ⟨hp, h⟩ | h
    · obtain ⟨xs, hr, h⟩ := withBuffer_next h
      cases h
      have ha : Placed s a := hp a (by simp)
      refine .inr (.inr ⟨a, _, rfl, ?_, ha.1, ha.2, rfl⟩)
      rw [incrementDigits_length, Memory.readRange_length hr]
    · cases h
      exact .inl ⟨.badCommand, by simp, rfl⟩
  | add a b =>
    rcases located_next h with ⟨hp, h⟩ | h
    · rcases checked_next h with ⟨hc, h⟩ | ⟨st, hst, h⟩
      · obtain ⟨xs, ys, hr, hr', h⟩ := withBuffers_next h
        cases h
        have hlen : a.len = b.len := by
          by_contra hn
          simp [checkLengths, hn] at hc
        have ha : Placed s a := hp a (by simp)
        refine .inr (.inr ⟨a, _, rfl, ?_, ha.1, ha.2, rfl⟩)
        rw [addDigits_length 0 (by rw [Memory.readRange_length hr, Memory.readRange_length hr', hlen]),
          Memory.readRange_length hr]
      · cases h
        refine .inl ⟨st, ?_, rfl⟩
        simp only [List.mem_cons, List.not_mem_nil, or_false] at hst
        rcases hst with hst | hst
        · exact checkLengths_ne_ok hst.symm
        · exact checkOverlap_ne_ok hst.symm
    · cases h
      exact .inl ⟨.badCommand, by simp, rfl⟩
  | subtract a b =>
    rcases located_next h with ⟨hp, h⟩ | h
    · rcases checked_next h with ⟨hc, h⟩ | ⟨st, hst, h⟩
      · obtain ⟨xs, ys, hr, hr', h⟩ := withBuffers_next h
        cases h
        have hlen : a.len = b.len := by
          by_contra hn
          simp [checkLengths, hn] at hc
        have ha : Placed s a := hp a (by simp)
        refine .inr (.inr ⟨a, _, rfl, ?_, ha.1, ha.2, rfl⟩)
        rw [subtractDigits_length 0 (by rw [Memory.readRange_length hr, Memory.readRange_length hr', hlen]),
          Memory.readRange_length hr]
      · cases h
        refine .inl ⟨st, ?_, rfl⟩
        simp only [List.mem_cons, List.not_mem_nil, or_false] at hst
        rcases hst with hst | hst
        · exact checkLengths_ne_ok hst.symm
        · exact checkOverlap_ne_ok hst.symm
    · cases h
      exact .inl ⟨.badCommand, by simp, rfl⟩

/-- ADD and SUBTRACT leave memory as it was unless the lengths agree and the buffers do not partially overlap
(20_memory.md R61; 60_exceptions.md R177). -/
theorem exec_two_buffers_passed {i : Instr} {a b : Buffer} {s t : State} (hi : i = .add a b ∨ i = .subtract a b)
    (h : exec i s = .next t) : t.mem = s.mem ∨ (a.len = b.len ∧ partialOverlap a b = false) := by
  have hc : t.mem = s.mem ∨ ∀ c ∈ [checkLengths a b, checkOverlap a b], c = none := by
    rcases hi with rfl | rfl <;> rcases located_next h with ⟨-, h⟩ | h <;>
      first
      | (cases h; exact .inl rfl)
      | rcases checked_next h with ⟨hc, -⟩ | ⟨st, -, h⟩
        · exact .inr hc
        · cases h
          exact .inl rfl
  refine hc.imp_right fun hc => ⟨?_, ?_⟩
  · by_contra hn
    simp [checkLengths, hn] at hc
  · by_contra hn
    simp [checkOverlap, hn] at hc

/-- All that an access of another agent can do where it has a next state (60_exceptions.md R186). -/
theorem applyAccess_cases {x : Access} {s t : State} (h : applyAccess x s = .next t) :
    (∃ addr, x = .read addr ∧ t = s) ∨
      ∃ addr b, x = .write addr b ∧ s.validAddr addr.toNat = true ∧ t = s.withMem (s.mem.write addr.toNat b) := by
  cases x with
  | read addr =>
    simp only [applyAccess] at h
    split at h <;> cases h
    exact .inl ⟨addr, rfl, rfl⟩
  | write addr b =>
    simp only [applyAccess] at h
    split at h <;> cases h
    exact .inr ⟨addr, b, rfl, by assumption, rfl⟩

end Sys2Proof.Machine
end

