-- ==== Sys2Proof/Laws/PerInstr.lean ====
section
/-!
SUPPORT. Statements about every instruction as syntax, one lemma per constructor: the descriptor of an instruction shows
the opcode of its row and has its reserved and unused fields zero (30_encoding.md R72, R75).
-/

namespace Sys2Proof.Laws

/-- The row of spec/opcode_table.json an instruction belongs to (30_encoding.md R72). -/
def rowOf : Instr → Opcode
  | .equals _ _ => .equals
  | .iszero _ => .iszero
  | .compare _ _ => .compare
  | .increment _ _ => .increment
  | .add _ _ => .add
  | .subtract _ _ => .subtract

namespace CanonicalFields

/-- The fields of the instruction's descriptor: OPCODE is its row's (30_encoding.md R72), RSV0 and RSV1 are zero, and so
is every field the operation does not use (R75). -/
def Statement (i : Instr) : Prop :=
  (fieldsOf (encode i)).opcode = opcodeValue (rowOf i) ∧ (fieldsOf (encode i)).rsv0 = 0 ∧
    (fieldsOf (encode i)).rsv1 = 0 ∧ unusedZero (rowOf i) (fieldsOf (encode i)) = true

theorem equals (a b : Buffer) : Statement (.equals a b) := by
  rw [Statement, encode, fieldsOf_descriptorOf]
  exact ⟨rfl, rfl, rfl, rfl⟩

theorem iszero (a : Buffer) : Statement (.iszero a) := by
  rw [Statement, encode, fieldsOf_descriptorOf]
  exact ⟨rfl, rfl, rfl, rfl⟩

theorem compare (a b : Buffer) : Statement (.compare a b) := by
  rw [Statement, encode, fieldsOf_descriptorOf]
  exact ⟨rfl, rfl, rfl, rfl⟩

theorem increment (a : Buffer) (amount : Nat) : Statement (.increment a amount) := by
  rw [Statement, encode, fieldsOf_descriptorOf]
  exact ⟨rfl, rfl, rfl, rfl⟩

theorem add (a b : Buffer) : Statement (.add a b) := by
  rw [Statement, encode, fieldsOf_descriptorOf]
  exact ⟨rfl, rfl, rfl, rfl⟩

theorem subtract (a b : Buffer) : Statement (.subtract a b) := by
  rw [Statement, encode, fieldsOf_descriptorOf]
  exact ⟨rfl, rfl, rfl, rfl⟩

end CanonicalFields

end Sys2Proof.Laws
end

