-- ==== Sys2Proof/Tests/Slice0.lean ====
section
/-!
SUPPORT. Tests. Expected results come from 95_test_vectors.md (rows V.., E.. and programs P.. are its own) and from
30_encoding.md R92. The `witness_` theorems show inputs that meet the hypotheses of the obligation they name.
-/

namespace Sys2Proof.Machine.Tests

/-- The machine with these digits written from an address on. -/
def put (s : State) (base : Nat) (digits : List Byte) : State := s.withMem (s.mem.writeRange base digits)

/-- Buffer `a` at 0x1000, as the vectors place it. -/
def one (xs : List Byte) : State := put State.reset 0x1000 xs

/-- Buffer `a` at 0x1000 and buffer `b` at 0x2000, as the vectors place them. -/
def two (xs ys : List Byte) : State := put (one xs) 0x2000 ys

/-- The operand of `n` bytes at 0x1000. -/
def bufA (n : Nat) : Buffer := ⟨0x1000, n⟩

/-- The operand of `n` bytes at 0x2000. -/
def bufB (n : Nat) : Buffer := ⟨0x2000, n⟩

/-- The machine with these events to come. -/
def given (s : State) (events : List Event) : State := { s with inputs := events }

/-- The machine on a platform with a hole. -/
def holed (s : State) (base size : Nat) : State := { s with holes := [⟨base, size⟩] }

/-- The responses delivered by an answer that goes on, and the digits at 0x1000 after it. -/
def seen (n : Nat) : Answer → Option (List RspWord × Option (List Byte))
  | .next t => some (t.responses, t.mem.readRange 0x1000 n)
  | _ => none

/-- The reason of a fault. -/
def faultOf : Answer → Option Fault
  | .fault f => some f
  | _ => none

/-- The reason of a refusal. -/
def refusalOf : Answer → Option Refusal
  | .refused r => some r
  | _ => none

/-! ## Well-formedness: each check refuses an ill-formed term -/

theorem test_wf_base : (Instr.iszero ⟨2 ^ 32, 0⟩).wellFormed = false := by decide
theorem test_wf_len : (Instr.iszero ⟨0, 2 ^ 32⟩).wellFormed = false := by decide
theorem test_wf_second_base : (Instr.equals ⟨0, 0⟩ ⟨2 ^ 32, 0⟩).wellFormed = false := by decide
theorem test_wf_second_len : (Instr.compare ⟨0, 0⟩ ⟨0, 2 ^ 32⟩).wellFormed = false := by decide
theorem test_wf_add : (Instr.add ⟨2 ^ 32, 0⟩ ⟨0, 0⟩).wellFormed = false := by decide
theorem test_wf_subtract : (Instr.subtract ⟨0, 0⟩ ⟨0, 2 ^ 32⟩).wellFormed = false := by decide
theorem test_wf_amount : (Instr.increment ⟨0, 0⟩ (2 ^ 63)).wellFormed = false := by decide
theorem test_wf_largest : (Instr.increment ⟨2 ^ 32 - 1, 2 ^ 32 - 1⟩ (2 ^ 63 - 1)).wellFormed = true := by decide

/-! ## Decoding: words written out from 30_encoding.md R71, R72, R92 and 95_test_vectors.md E1 to E15 -/

theorem test_decode_equals : decode 0x00000000000000000000000400002000000000040000100000000001#224 =
    .ok (.equals ⟨0x1000, 4⟩ ⟨0x2000, 4⟩) := by decide
theorem test_decode_iszero : decode 0x00000000000000000000000000000000000000040000100000000002#224 =
    .ok (.iszero ⟨0x1000, 4⟩) := by decide
theorem test_decode_compare : decode 0x00000000000000000000000400002000000000040000100000000003#224 =
    .ok (.compare ⟨0x1000, 4⟩ ⟨0x2000, 4⟩) := by decide
theorem test_decode_increment : decode 0x7FFFFFFFFFFFFFFF0000000000000000000000080000100000000004#224 =
    .ok (.increment ⟨0x1000, 8⟩ 9223372036854775807) := by decide
theorem test_decode_add : decode 0x00000000000000000000000400002000000000040000100000000005#224 =
    .ok (.add ⟨0x1000, 4⟩ ⟨0x2000, 4⟩) := by decide
theorem test_decode_subtract : decode 0x00000000000000000000000400002000000000040000100000000006#224 =
    .ok (.subtract ⟨0x1000, 4⟩ ⟨0x2000, 4⟩) := by decide
theorem test_decode_e8 : decode 0#224 = .error .illegalOpcode := by decide
theorem test_decode_e9 : decode 0x00000000000000000000000400002000000000040000100000000007#224 =
    .error .illegalOpcode := by decide
theorem test_decode_e11 : decode 0x00000000000000000000000000000000000000040000100000000102#224 =
    .error .reservedNonZero := by decide
theorem test_decode_e12 : decode 0x00000000000000000000000400000000000000040000100000000002#224 =
    .error .unusedNonZero := by decide
theorem test_decode_e13 : decode 0x00000000000000010000000000002000000000040000100000000004#224 =
    .error .unusedNonZero := by decide
theorem test_decode_e14 : decode 0x00000000000000010000000400002000000000040000100000000005#224 =
    .error .unusedNonZero := by decide
theorem test_decode_e15 : decode 0x80000000000000010000000000000000000000080000100000000004#224 =
    .error .reservedNonZero := by decide

/-- R92 read bit by bit: OPCODE 4 is bit 2, A_BASE 0x1000 is bit 44, A_LEN 8 is bit 67, AMOUNT 1 is bit 160. -/
theorem test_decode_bits : decodeTableWord 224 (2 ^ 2 + 2 ^ 44 + 2 ^ 67 + 2 ^ 160) =
    some (.increment ⟨0x1000, 8⟩ 1) := by decide
theorem test_decode_short : decodeTableWord 8 0x03 = some (.compare ⟨0, 0⟩ ⟨0, 0⟩) := by decide
theorem test_decode_refused : decodeTableWord 224 0x102 = none := by decide

/-! ## Assembling: 30_encoding.md R90, R91; 95_test_vectors.md E4, E5, E6 -/

theorem test_line_add : assembleLine "ADD 0x1000:4, 0x2000:4 ; S7".toList =
    some (.add ⟨0x1000, 4⟩ ⟨0x2000, 4⟩) := by decide
theorem test_line_omitted : assembleLine "INCREMENT 0x1000:8".toList = some (.increment ⟨0x1000, 8⟩ 1) := by decide
theorem test_line_zero : assembleLine "INCREMENT 0x1000:8, #0".toList = some (.increment ⟨0x1000, 8⟩ 0) := by decide
theorem test_line_negative : assembleLine "INCREMENT 0x1000:8, #-1".toList = none := by decide
theorem test_line_lower_case : assembleLine "add 0x1000:4, 0x2000:4".toList = none := by decide

/-! ## The operations: 95_test_vectors.md sections 2.1 to 2.6 -/

theorem test_equals_v1 : seen 0 (exec (.equals (bufA 4) (bufB 4)) (two [1, 2, 3, 4] [1, 2, 3, 4])) =
    some ([0b0001], some []) := by decide
theorem test_equals_v2 : seen 0 (exec (.equals (bufA 4) (bufB 4)) (two [1, 2, 3, 4] [1, 2, 3, 5])) =
    some ([0b0000], some []) := by decide
theorem test_iszero_v9 : seen 4 (exec (.iszero (bufA 4)) (one [0, 0, 0, 0])) =
    some ([0b0001], some [0, 0, 0, 0]) := by decide
theorem test_iszero_v12 : seen 3 (exec (.iszero (bufA 3)) (one [0, 0x80, 0])) =
    some ([0b0000], some [0, 0x80, 0]) := by decide
theorem test_compare_v15 : seen 0 (exec (.compare (bufA 4) (bufB 4)) (two [4, 3, 2, 1] [1, 2, 3, 4])) =
    some ([0b0011], some []) := by decide
theorem test_compare_v22 : seen 0 (exec (.compare (bufA 1) (bufB 1)) (two [0x80] [0x7F])) =
    some ([0b0001], some []) := by decide
theorem test_increment_v35 : seen 8 (exec (.increment (bufA 8) 0x7FFFFFFFFFFFFFFF) (one [0, 0, 0, 0, 0, 0, 0, 0])) =
    some ([0b0000], some [0xFF, 0xFF, 0xFF, 0xFF, 0xFF, 0xFF, 0xFF, 0x7F]) := by decide
theorem test_increment_v40 : seen 1 (exec (.increment (bufA 1) 511) (one [1])) = some ([0b0000], some [0]) := by decide
theorem test_add_v52 : seen 3 (exec (.add (bufA 3) (bufB 3)) (two [0x80, 0x80, 0x80] [0x80, 0x80, 0x80])) =
    some ([0b0000], some [0, 1, 1]) := by decide
theorem test_add_v55 : seen 2 (exec (.add (bufA 2) (bufA 2)) (one [0x80, 0x80])) =
    some ([0b0000], some [0, 1]) := by decide
theorem test_subtract_v61 : seen 3 (exec (.subtract (bufA 3) (bufB 3)) (two [0, 0, 1] [1, 0, 0])) =
    some ([0b0000], some [0xFF, 0xFF, 0]) := by decide
theorem test_subtract_v65 : seen 3 (exec (.subtract (bufA 3) (bufB 3)) (two [0, 0, 0] [0, 0xFF, 0])) =
    some ([0b0000], some [0, 1, 0xFF]) := by decide

/-! ## Steps: 95_test_vectors.md E16 to E26, and how a command comes to run -/

theorem test_step_e16 : seen 0 (step ((put State.reset 0xFFFFFFFC [0, 0, 0, 0]).withFetchWord 224
    0x0000000000000000000000000000000000000004FFFFFFFC00000002)) = some ([0b0001], some []) := by decide
theorem test_step_e17 : seen 0 (step (State.reset.withFetchWord 224
    0x0000000000000000000000000000000000000004FFFFFFFD00000002)) = some ([0b1000], some []) := by decide
theorem test_step_e20 : seen 0 (step (State.reset.withFetchWord 224
    0x000000000000000000000008FFFFFFFF000000040000100000000003)) = some ([0b1000], some []) := by decide
theorem test_step_e21 : seen 6 (step ((one [1, 2, 3, 4, 5, 6]).withFetchWord 224
    0x00000000000000000000000400001002000000040000100000000005)) = some ([0b1000], some [1, 2, 3, 4, 5, 6]) := by decide
theorem test_step_e23 : seen 8 (step ((one [1, 2, 3, 4, 5, 6, 7, 8]).withFetchWord 224
    0x00000000000000000000000400001004000000040000100000000005)) =
    some ([0b0000], some [6, 8, 10, 12, 5, 6, 7, 8]) := by decide
theorem test_step_e24 : seen 0 (step (State.reset.withFetchWord 224
    0x00000000000000000000000300001002000000040000100000000005)) = some ([0b0100], some []) := by decide
theorem test_step_e25 : seen 0 (step ((one [1, 2, 3, 4, 5, 6]).withFetchWord 224
    0x00000000000000000000000400001002000000040000100000000003)) = some ([0b0011], some []) := by decide
theorem test_step_unwritten : faultOf (step ((one [0, 0, 0]).withFetchWord 224
    0x00000000000000000000000000000000000000040000100000000002)) = some .unwrittenByte := by decide
/-- 20_memory.md R44: the word of E24, and E1 with a second length of 3, have unequal lengths and name a byte in a hole. -/
theorem test_step_hole_add : refusalOf (step ((holed State.reset 0x1004 1).withFetchWord 224
    0x00000000000000000000000300001002000000040000100000000005)) = some .outsideValidAddr := by decide
theorem test_step_hole_equals : refusalOf (step ((holed State.reset 0x2002 1).withFetchWord 224
    0x00000000000000000000000300002000000000040000100000000001)) = some .outsideValidAddr := by decide
/-- 60_exceptions.md R174: a buffer past the top (E20) makes no memory access, hole or not. -/
theorem test_step_hole_range : seen 0 (step ((holed State.reset 0x1000 4).withFetchWord 224
    0x000000000000000000000008FFFFFFFF000000040000100000000003)) = some ([0b1000], some []) := by decide
theorem test_step_hole : refusalOf (step ((holed (one [0, 0, 0, 0]) 0x1003 1).withFetchWord 224
    0x00000000000000000000000000000000000000040000100000000002)) = some .outsideValidAddr := by decide

/-! ## Witnesses for the hypotheses of the obligations, one clause each -/

/-- The word of `ADD 0x1000:4, 0x2000:4` (95_test_vectors.md E6). -/
def addWord : Descriptor := 0x00000000000000000000000400002000000000040000100000000005#224

/-- The word of `COMPARE 0x1000:4, 0x2000:4` (95_test_vectors.md E3). -/
def compareWord : Descriptor := 0x00000000000000000000000400002000000000040000100000000003#224

/-- The operands of V15 and of S7. -/
def v15 : State := two [4, 3, 2, 1] [1, 2, 3, 4]

theorem witness_DecodeInvertsEncode_wellFormed :
    (Instr.increment ⟨2 ^ 32 - 1, 2 ^ 32 - 1⟩ (2 ^ 63 - 1)).wellFormed = true ∧
      (Instr.subtract ⟨0, 0⟩ ⟨2 ^ 32 - 1, 2 ^ 32 - 1⟩).wellFormed = true := by decide
theorem witness_DecodeInvertsEncode_decoded :
    decode 0x7FFFFFFFFFFFFFFF0000000000000000FFFFFFFFFFFFFFFF00000004#224 =
      .ok (.increment ⟨2 ^ 32 - 1, 2 ^ 32 - 1⟩ (2 ^ 63 - 1)) := by decide
theorem witness_DecodedOperandsAreTheFields :
    decode addWord = .ok (.add ⟨0x1000, 4⟩ ⟨0x2000, 4⟩) := by decide
theorem witness_IllegalDescriptorsAnswerBadCommand :
    let cmd : Descriptor := 0x07#224
    (given v15 [.present cmd []]).inputs = .present cmd [] :: [] ∧
    ∀ row ∈ [(0xFFFFFFFFFFFFFFFF00000000000000000000000000000000FFFFFFFF#224, 0x01#224),
        (0xFFFFFFFFFFFFFFFFFFFFFFFFFFFFFFFF0000000000000000FFFFFFFF#224, 0x02#224),
        (0xFFFFFFFFFFFFFFFF00000000000000000000000000000000FFFFFFFF#224, 0x03#224),
        (0x8000000000000000FFFFFFFFFFFFFFFF0000000000000000FFFFFFFF#224, 0x04#224),
        (0xFFFFFFFFFFFFFFFF00000000000000000000000000000000FFFFFFFF#224, 0x05#224),
        (0xFFFFFFFFFFFFFFFF00000000000000000000000000000000FFFFFFFF#224, 0x06#224)], cmd &&& row.1 ≠ row.2 :=
  ⟨rfl, by simp⟩
theorem witness_OmittedScalarAssemblesAsOne :
    assembleForm .increment [.buffer 0x1000 8] = some (.increment ⟨0x1000, 8⟩ 1) ∧
      assembleForm .increment [.buffer 0x1000 8, .scalar 0] = some (.increment ⟨0x1000, 8⟩ 0) ∧
      assembleForm .iszero [.buffer 0x1000 8] = some (.iszero ⟨0x1000, 8⟩) ∧
      assembleForm .add [.buffer 0 1, .buffer 1 1] = some (.add ⟨0, 1⟩ ⟨1, 1⟩) := by decide
theorem witness_AssemblerChecksFieldsOnly_fits :
    let i : Instr := .increment ⟨2 ^ 32 - 1, 2 ^ 32 - 1⟩ (2 ^ 63 - 1)
    instrOfText .increment [.buffer (2 ^ 32 - 1) (2 ^ 32 - 1), .scalar (2 ^ 63 - 1)] = some i ∧
      i.wellFormed = true := by decide
theorem witness_AssemblerChecksFieldsOnly_fitsNot :
    instrOfText .increment [.buffer 0 0, .scalar (2 ^ 63)] = some (.increment ⟨0, 0⟩ (2 ^ 63)) ∧
      (Instr.increment ⟨0, 0⟩ (2 ^ 63)).wellFormed = false := by decide
theorem witness_StepRunsTheDecodedCommand :
    let i : Instr := .add ⟨0x1000, 4⟩ ⟨0x2000, 4⟩
    decode addWord = .ok i ∧ exclusive i [.read 0x2000, .write 0x1004 1] = true ∧ exclusive i [] = true := by decide
theorem witness_IdleStepChangesNothing : v15.inputs = [] := by decide
theorem witness_OneResponsePerCommand :
    (∃ t, step (given v15 [.present addWord []]) = .next t) ∧ (∃ t, step (given v15 [.access (.read 0x1000)]) = .next t) ∧
    (∃ t, step (given v15 [.reset]) = .next t) ∧ ∃ t, step (given v15 [.resetDuring addWord]) = .next t :=
  ⟨⟨_, rfl⟩, ⟨_, rfl⟩, ⟨_, rfl⟩, ⟨_, rfl⟩⟩
theorem witness_ResponsesNeverHoldUnusedCodes_result :
    ∃ t, step (given v15 [.present compareWord []]) = .next t ∧ t.responses = [] ++ [0b0011#4] ∧
      rspResult 0b0011#4 = 0b11#2 := ⟨_, rfl, by decide, by decide⟩
theorem witness_ResponsesNeverHoldUnusedCodes_status :
    ∃ t, step (given v15 [.present 0 []]) = .next t ∧ t.responses = [] ++ [0b1000#4] ∧
      rspStatus 0b1000#4 ≠ 0b00#2 := ⟨_, rfl, by decide, by decide⟩
theorem witness_EveryStepKeepsTheInvariant :
    (given v15 [.present addWord []]).Inv ∧ ∃ t, step (given v15 [.present addWord []]) = .next t :=
  ⟨by decide, _, rfl⟩
theorem witness_ResetKeepsBufferMemory : (given v15 [.reset]).inputs = .reset :: [] := by decide
theorem witness_ResetDuringCommandForgetsTheDestination_reader :
    (∃ t, step (given v15 [.resetDuring compareWord]) = .next t) ∧
      destinationsOf (.compare ⟨0x1000, 4⟩ ⟨0x2000, 4⟩) = [] ∧
      decode compareWord = .ok (.compare ⟨0x1000, 4⟩ ⟨0x2000, 4⟩) := ⟨⟨_, rfl⟩, by decide, by decide⟩
theorem witness_ResetDuringCommandForgetsTheDestination_writer :
    (∃ t, step (given v15 [.resetDuring addWord]) = .next t) ∧
      destinationsOf (.add ⟨0x1000, 4⟩ ⟨0x2000, 4⟩) = [⟨0x1000, 4⟩] ∧
      decode addWord = .ok (.add ⟨0x1000, 4⟩ ⟨0x2000, 4⟩) := ⟨⟨_, rfl⟩, by decide, by decide⟩
theorem witness_AgentsAccessMemoryBetweenCommands :
    State.reset.validAddr (0#32).toNat = true ∧ State.reset.validAddr (0xFFFFFFFF#32).toNat = true ∧
    (given v15 [.access (.read 0)]).inputs = .access (.read 0) :: [] ∧
    (given v15 [.access (.write 0xFFFFFFFF 1)]).inputs = .access (.write 0xFFFFFFFF 1) :: [] := by decide
theorem witness_EffectDependsOnCommandAndMemoryOnly_next :
    ∃ t, step (given v15 [.present addWord []]) = .next t ∧
      (v15.deliver 1).mem = v15.mem ∧ (v15.deliver 1).holes = v15.holes := ⟨_, rfl, by decide, by decide⟩
theorem witness_EffectDependsOnCommandAndMemoryOnly_fault :
    step (given State.reset [.present addWord []]) = .fault .unwrittenByte := rfl
theorem witness_EffectDependsOnCommandAndMemoryOnly_refused :
    step (given (holed v15 0x1000 1) [.present addWord []]) = .refused .outsideValidAddr := rfl

theorem witness_EqualsAnswersLengthAndByteEquality_lengths :
    Placed State.reset ⟨0xFFFFFFFC, 4⟩ ∧ Placed State.reset ⟨0, 3⟩ ∧ (4 : Nat) ≠ 3 := by decide
theorem witness_EqualsAnswersLengthAndByteEquality_equal :
    let s := two [1, 2] [1, 2]
    Holds s (bufA 2) [1, 2] ∧ Holds s (bufB 2) [1, 2] ∧
      ∀ k, k < 2 → s.mem.read (0x1000 + k) = s.mem.read (0x2000 + k) := by decide
theorem witness_EqualsAnswersLengthAndByteEquality_different :
    let s := two [1, 2] [1, 3]
    Holds s (bufA 2) [1, 2] ∧ Holds s (bufB 2) [1, 3] ∧ s.mem.read (0x1000 + 1) ≠ s.mem.read (0x2000 + 1) := by decide
theorem witness_IszeroAnswersWhetherEveryByteIsZero_zero :
    let s := one [0, 0]
    Holds s (bufA 2) [0, 0] ∧ (∀ k, k < 2 → s.mem.read (0x1000 + k) = some 0) ∧ val [0, 0] = 0 := by decide
theorem witness_IszeroAnswersWhetherEveryByteIsZero_not :
    let s := one [0, 0x80]
    Holds s (bufA 2) [0, 0x80] ∧ s.mem.read (0x1000 + 1) ≠ some 0 ∧ val [0, 0x80] ≠ 0 := by decide
theorem witness_CompareAnswersNumericOrder :
    Holds v15 (bufA 4) [4, 3, 2, 1] ∧ Holds v15 (bufB 4) [1, 2, 3, 4] ∧ val [4, 3, 2, 1] < val [1, 2, 3, 4] ∧
      (bufA 4).len = (bufB 4).len := by decide
theorem witness_CompareDecidesAtTheHighestDifference :
    let s := two [0, 1, 7] [0xFF, 0, 7]
    Holds s (bufA 3) [0, 1, 7] ∧ Holds s (bufB 3) [0xFF, 0, 7] ∧ s.mem.read (0x1000 + 1) = some 1 ∧
      s.mem.read (0x2000 + 1) = some 0 ∧ (1 : Byte) ≠ 0 ∧
      ∀ m, m < 3 → 1 < m → s.mem.read (0x1000 + m) = s.mem.read (0x2000 + m) := by decide
theorem witness_IncrementAddsTheScalar :
    Holds (one [0xFE, 0xFF]) (bufA 2) [0xFE, 0xFF] ∧ Holds (one []) (bufA 0) [] := by decide
theorem witness_AddStoresTheSum :
    let s := two [0xFF, 0xFF] [1, 0]
    Holds s (bufA 2) [0xFF, 0xFF] ∧ Holds s (bufB 2) [1, 0] ∧ partialOverlap (bufA 2) (bufB 2) = false ∧
      partialOverlap (bufA 2) (bufA 2) = false ∧ bufA 2 ≠ bufB 2 := by decide
theorem witness_SubtractStoresTheDifference_noBorrow :
    let s := two [2, 0] [2, 0]
    Holds s (bufA 2) [2, 0] ∧ Holds s (bufB 2) [2, 0] ∧ partialOverlap (bufA 2) (bufB 2) = false ∧
      val [2, 0] ≤ val [2, 0] ∧ bufA 2 ≠ bufB 2 := by decide
theorem witness_SubtractStoresTheDifference_borrow :
    let s := two [0, 0] [1, 0]
    Holds s (bufA 2) [0, 0] ∧ Holds s (bufB 2) [1, 0] ∧ partialOverlap (bufA 2) (bufB 2) = false ∧
      val [0, 0] < val [1, 0] := by decide

/-- One word for each of the checks 1 to 4 of 60_exceptions.md R176 (95_test_vectors.md E8, E11, E17, E18). -/
theorem witness_ChecksDecideInOrder_malformed :
    malformed 0#224 = true ∧ malformed 0x00000000000000000000000000000000000000040000100000000102#224 = true ∧
    malformed 0x0000000000000000000000000000000000000004FFFFFFFD00000002#224 = true ∧
    malformed 0x000000000000000000000004FFFFFFFF000000040000100000000003#224 = true := by decide
theorem witness_ChecksDecideInOrder_outside :
    let cmd : Descriptor := 0x00000000000000000000000300001002000000040000100000000005#224
    malformed cmd = false ∧ namesValidBytes (holed State.reset 0x1004 1) cmd = false := by decide

/-- One word for check 5 and one for check 6 (95_test_vectors.md E24, E21). -/
theorem witness_ChecksDecideInOrder_mismatch :
    let c : Descriptor := 0x00000000000000000000000300001002000000040000100000000005#224
    let d : Descriptor := 0x00000000000000000000000400001002000000040000100000000005#224
    malformed c = false ∧ namesValidBytes State.reset c = true ∧ mismatchOf c = some 0b0100#4 ∧
    malformed d = false ∧ namesValidBytes State.reset d = true ∧ mismatchOf d = some 0b1000#4 := by decide
theorem witness_ChecksDecideInOrder_lengths :
    let cmd : Descriptor := 0x00000000000000000000000300002000000000040000100000000001#224
    malformed cmd = false ∧ namesValidBytes State.reset cmd = true ∧ mismatchOf cmd = none ∧
      cmdField cmd 0 8 = 1 ∧ cmdField cmd 64 32 ≠ cmdField cmd 128 32 := by decide
theorem witness_ChecksDecideInOrder_passes :
    malformed addWord = false ∧ namesValidBytes v15 addWord = true ∧ mismatchOf addWord = none ∧
      ∃ t, step (given v15 [.present addWord []]) = .next t := ⟨by decide, by decide, by decide, _, rfl⟩
theorem witness_UnequalLengthsAnswered :
    Placed State.reset ⟨0xFFFFFFFC, 4⟩ ∧ Placed State.reset ⟨0, 0⟩ ∧ (4 : Nat) ≠ 0 := by decide
theorem witness_LengthMismatchOnlyFromUnequalLengths :
    ∃ t, exec (.compare (bufA 3) (bufB 4)) v15 = .next t ∧ t.responses = v15.responses ++ [0b0100#4] :=
  ⟨_, rfl, by decide⟩
theorem witness_BuffersPastTheTopAreRejected :
    (⟨0xFFFFFFFD, 4⟩ : Buffer) ∈ buffersOf (.add (bufA 4) ⟨0xFFFFFFFD, 4⟩) ∧ 2 ^ 32 < 0xFFFFFFFD + 4 := by decide
theorem witness_EmptyBuffersAreLegalOperands :
    0xFFFFFFFF < 2 ^ 32 ∧ Placed State.reset ⟨0xFFFFFFFF, 1⟩ ∧ 0 < (⟨0xFFFFFFFF, 1⟩ : Buffer).len := by decide
theorem witness_ExactAliasingIsLegal : Holds (one [0x80, 0x80]) (bufA 2) [0x80, 0x80] := by decide
theorem witness_PartialOverlapIsLegalForReadersOnly :
    let s := one [1, 2, 3, 4, 5]
    let b : Buffer := ⟨0x1003, 4⟩
    Placed s (bufA 4) ∧ Placed s b ∧ (bufA 4).base < b.base + b.len ∧ b.base < (bufA 4).base + (bufA 4).len ∧
      (bufA 4).len = b.len ∧ (bufA 4).base ≠ b.base := by decide
theorem witness_PartialOverlapIsLegalForReadersOnly_readers :
    let s := one [1, 2, 3, 4, 5]
    let b : Buffer := ⟨0x1001, 4⟩
    let c : Buffer := ⟨0x1002, 1⟩
    Holds s (bufA 4) [1, 2, 3, 4] ∧ Holds s b [2, 3, 4, 5] ∧ b.base < (bufA 4).base + (bufA 4).len ∧
      Holds s c [3] ∧ (bufA 4).base < c.base + c.len ∧ c.base < (bufA 4).base + (bufA 4).len ∧
      (bufA 4).len ≠ c.len := by decide
theorem witness_FailedCommandsWriteNothing :
    ∃ t, step (given v15 [.present 0x00000000000000000000000400001002000000040000100000000005#224 []]) = .next t ∧
      t.responses = v15.responses ++ [0b1000#4] ∧ rspStatus 0b1000#4 ≠ 0b00#2 := ⟨_, rfl, by decide, by decide⟩
theorem witness_OnlyTheDestinationChanges :
    ∃ t, exec (.add (bufA 4) (bufB 4)) v15 = .next t ∧ t.mem.read 0x1000 ≠ v15.mem.read 0x1000 :=
  ⟨_, rfl, by decide⟩
theorem witness_EveryReadyCommandCompletes :
    Ready v15 (.equals (bufA 4) (bufB 4)) ∧ Ready v15 (.iszero (bufA 4)) ∧ Ready v15 (.compare (bufA 4) (bufB 4)) ∧
      Ready v15 (.increment (bufA 4) 1) ∧ Ready v15 (.add (bufA 4) (bufB 4)) ∧
      Ready v15 (.subtract (bufA 4) (bufB 4)) := by decide
theorem witness_CommandsStopOnlyOutsideTheContract :
    exec (.iszero (bufA 5)) v15 = .fault .unwrittenByte ∧
      exec (.iszero (bufA 4)) (holed v15 0x1003 1) = .refused .outsideValidAddr := ⟨rfl, rfl⟩
theorem witness_UnwrittenBytesFault :
    Placed v15 (bufA 5) ∧ inBuffer (bufA 5) 0x1004 = true ∧ v15.mem.read 0x1004 = none ∧ Placed v15 (bufB 5) ∧
      partialOverlap (bufA 5) (bufB 5) = false ∧ Placed v15 ⟨0x1001, 5⟩ := by decide
theorem witness_AccessOutsideValidAddrIsRefused :
    let s := holed v15 0x1003 1
    inRange (bufA 4) = true ∧ inBuffer (bufA 4) 0x1003 = true ∧ s.validAddr 0x1003 = false ∧
      inRange (bufB 3) = true ∧ inRange ⟨0x1001, 4⟩ = true := by decide

theorem witness_IncrementOfFullBufferWrapsToZero :
    let s := two [0xFF, 0xFF] [1]
    Holds s (bufA 2) (List.replicate 2 0xFF#8) ∧ Holds s (bufB 1) [1] := by decide
theorem witness_IncrementOfZeroGivesOne :
    (bufA 2).len = 1 + 1 ∧ Holds (one [0, 0]) (bufA 2) (List.replicate (1 + 1) 0#8) := by decide
theorem witness_AmountZeroAddsNothing : Holds (one [5, 6, 7]) (bufA 3) [5, 6, 7] := by decide
theorem witness_IncrementIsAddOfTheAmountsDigits :
    let s := two [1, 2] [1, 0]
    Holds s (bufA 2) [1, 2] ∧ partialOverlap (bufA 2) (bufB 2) = false ∧
      Holds s (bufB 2) (bytesOf 2 (0x10001 % 256 ^ 2)) := by decide
theorem witness_SubtractIsAddOfTheComplement :
    let s := put (two [1, 2] [1, 0]) 0x3000 [0xFF, 0xFF]
    Holds s (bufA 2) [1, 2] ∧ Holds s (bufB 2) [1, 0] ∧ Holds s ⟨0x3000, 2⟩ [0xFF, 0xFF] ∧
      partialOverlap (bufA 2) (bufB 2) = false ∧ partialOverlap (bufA 2) ⟨0x3000, 2⟩ = false ∧
      val [0xFF, 0xFF] = (256 ^ 2 - val [1, 0]) % 256 ^ 2 := by decide
theorem witness_AddWritesItsFirstOperand :
    Holds v15 (bufA 4) [4, 3, 2, 1] ∧ Holds v15 (bufB 4) [1, 2, 3, 4] ∧ partialOverlap (bufA 4) (bufB 4) = false ∧
      bufA 4 ≠ bufB 4 := by decide
theorem witness_AddAndSubtractUndoEachOther :
    let s := put (two [0xF0, 0xFF] [0x20, 0]) 0x3000 [0x20, 0]
    s.mem.wf ∧ Holds s (bufA 2) [0xF0, 0xFF] ∧ Holds s (bufB 2) [0x20, 0] ∧ Holds s ⟨0x3000, 2⟩ [0x20, 0] ∧
      partialOverlap (bufA 2) (bufB 2) = false ∧ partialOverlap (bufA 2) ⟨0x3000, 2⟩ = false ∧
      bufA 2 ≠ ⟨0x3000, 2⟩ ∧ [0x20, 0] = bytesOf 2 (0x10020 % 256 ^ 2) := by decide
theorem witness_IncrementsCompose : (one [0xFF]).mem.wf ∧ Holds (one [0xFF]) (bufA 1) [0xFF] := by decide
theorem witness_IncrementByOneHasPeriod256ToTheLength : Holds (one [0xFF]) (bufA 1) [0xFF] := by decide
theorem witness_CompareTellsAWrap :
    let s := put (two [0xFF, 0] [1, 0]) 0x3000 [0xFF, 0]
    Holds s (bufA 2) [0xFF, 0] ∧ Holds s (bufB 2) [1, 0] ∧ Holds s ⟨0x3000, 2⟩ [0xFF, 0] ∧
      partialOverlap (bufA 2) (bufB 2) = false ∧ (bufA 2).base + (bufA 2).len ≤ 0x3000 ∧ val [1, 0] ≠ 0 ∧
      0 < 1 ∧ 1 < 256 ^ 2 := by decide
theorem witness_IszeroTellsAWrappedCounter_wrap :
    Holds (one [0xFF, 0xFF]) (bufA 2) [0xFF, 0xFF] ∧ ∀ x ∈ [0xFF#8, 0xFF#8], x = 0xFF#8 := by decide
theorem witness_IszeroTellsAWrappedCounter_none :
    Holds (one [0xFE, 0xFF]) (bufA 2) [0xFE, 0xFF] ∧ 0xFE#8 ∈ [0xFE#8, 0xFF#8] ∧ 0xFE#8 ≠ 0xFF#8 := by decide
theorem witness_EqualsAgreesWithCompare :
    Holds v15 (bufA 4) [4, 3, 2, 1] ∧ Holds v15 (bufB 4) [1, 2, 3, 4] ∧ (bufA 4).len = (bufB 4).len := by decide
theorem witness_CompareIsAStrictTotalOrder_chain :
    let s := put (two [1] [2]) 0x3000 [3]
    Holds s (bufA 1) [1] ∧ Holds s (bufB 1) [2] ∧ Holds s ⟨0x3000, 1⟩ [3] ∧
      exec (.compare (bufA 1) (bufB 1)) s = .next (s.deliver 0b0011#4) ∧
      exec (.compare (bufB 1) ⟨0x3000, 1⟩) s = .next (s.deliver 0b0011#4) :=
  ⟨by decide, by decide, by decide, rfl, rfl⟩
theorem witness_CompareIsAStrictTotalOrder_zero :
    let s := put (two [1] [2]) 0x3000 [0]
    Holds s (bufA 1) [1] ∧ Holds s ⟨0x3000, 1⟩ [0] ∧ val [0] = 0 ∧
      exec (.iszero (bufA 1)) s = .next (s.deliver 0b0000#4) ∧
      exec (.iszero ⟨0x3000, 1⟩) s = .next (s.deliver 0b0001#4) :=
  ⟨by decide, by decide, by decide, rfl, rfl⟩
theorem witness_ShorterLoadSeesTheLowDigits :
    Holds (one [1, 2, 3]) (bufA 3) [1, 2, 3] ∧ 3 ≤ (bufA 3).len ∧ 0 ≤ (bufA 3).len := by decide

/-- Two commands that share a buffer both only read (20_memory.md R52), each with a destination of its own. -/
theorem witness_CompatibleCommandsCommute :
    let s := put v15 0x3000 [9, 9, 9, 9]
    let i : Instr := .add (bufA 4) (bufB 4)
    let j : Instr := .subtract ⟨0x3000, 4⟩ (bufB 4)
    s.mem.wf ∧ Compatible i j ∧ ∃ t u, exec i s = .next t ∧ exec j t = .next u := by
  refine ⟨by decide, ?_, _, _, rfl, rfl⟩
  constructor <;> · simp [destinationsOf, buffersOf, inBuffer, bufA, bufB]; refine ⟨?_, ?_⟩ <;> intros <;> omega
theorem witness_AllowedAccessesCommuteWithTheCommand :
    let i : Instr := .add (bufA 4) (bufB 4)
    let during : List Access := [.read 0x2003, .write 0x1004 7]
    v15.mem.wf ∧ exclusive i during = true ∧ ∃ t u, exec i v15 = .next t ∧ applyAccesses during t = .next u :=
  ⟨by decide, by decide, _, _, rfl, rfl⟩
theorem witness_BrokenExclusivityIsRefused_write :
    let i : Instr := .add (bufA 4) (bufB 4)
    decode addWord = .ok i ∧ bufB 4 ∈ buffersOf i ∧ inBuffer (bufB 4) (0x2003#32).toNat = true ∧
      Access.write 0x2003 0 ∈ [Access.write 0x2003 0] := by decide
theorem witness_BrokenExclusivityIsRefused_read :
    let i : Instr := .add (bufA 4) (bufB 4)
    decode addWord = .ok i ∧ bufA 4 ∈ destinationsOf i ∧ inBuffer (bufA 4) (0x1003#32).toNat = true ∧
      Access.read 0x1003 ∈ [Access.read 0x1003] := by decide

end Sys2Proof.Machine.Tests
end

section
/-!
PROOFS. The statements about state (10_state.md): the step runs the decoded command, reset leaves the engine idle, a
command writes its destination only, and its effect depends on nothing but the event and buffer memory.
-/

namespace Sys2Proof.Machine

/-! ### The step, as one equation for each way it goes -/

/-- An answer passed on unchanged. -/
@[simp] theorem andThen_next_right (o : Answer) : andThen o .next = o := by
  cases o <;> rfl

@[simp] theorem applyAccesses_nil : applyAccesses [] = Host.Outcome.next := rfl

/-- A step handles the first event waiting, which it takes off the inputs. -/
theorem step_of_inputs {s : State} {e : Event} {rest : List Event} (h : s.inputs = e :: rest) :
    step s = handleEvent e { s with inputs := rest } := by
  simp only [step, stepInputs, h]

/-- A legal descriptor presented with exclusive access kept runs its instruction, then the accesses of the other agents
(20_memory.md R50, R52). -/
theorem presentCommand_of_decode {cmd : Descriptor} {during : List Access} {i : Instr} (s : State)
    (hd : decode cmd = .ok i) (hx : exclusive i during = true) :
    presentCommand cmd during s = andThen (exec i s) (applyAccesses during) := by
  simp only [presentCommand, hd, if_pos hx]

/-- Settles O9: the event is taken off the inputs, and with no access made meanwhile nothing follows exec. -/
theorem stepRunsTheDecodedCommand : Obligations.StepRunsTheDecodedCommand := by
  intro s cmd during rest i hin hd hx
  have hstep : step s = andThen (exec i { s with inputs := rest }) (applyAccesses during) :=
    (step_of_inputs hin).trans (presentCommand_of_decode _ hd hx)
  refine ⟨hstep, fun hnone => ?_⟩
  rw [hstep, hnone, applyAccesses_nil, andThen_next_right]

/-! ### The state after reset -/

/-- Where the platform has no hole, every address of the space is plain memory (20_memory.md R44). -/
theorem State.validAddr_of_no_holes {s : State} {addr : Nat} (hs : s.holes = []) (h : addr < Config.addrSpace) :
    s.validAddr addr = true := by
  simp [State.validAddr, hs, h]

/-- Settles O14: no byte is listed and no response delivered. -/
theorem resetMeetsTheInvariant : Obligations.ResetMeetsTheInvariant :=
  ⟨⟨List.Pairwise.nil, fun _ hc => absurd hc List.not_mem_nil⟩, fun _ hc => absurd hc List.not_mem_nil,
    fun _ hr => absurd hr List.not_mem_nil⟩

/-- Settles O15: the fields of the reset state, and that no hole means ValidAddr is the whole space. -/
theorem resetLeavesTheEngineIdle : Obligations.ResetLeavesTheEngineIdle :=
  ⟨rfl, rfl, Memory.read_nil, fun _ h => State.validAddr_of_no_holes rfl h⟩

/-! ### What a command changes -/

theorem inBuffer_iff {x : Buffer} {addr : Nat} :
    inBuffer x addr = true ↔ x.base ≤ addr ∧ addr < x.base + x.len := by
  simp [inBuffer]

/-- Storing as many digits as the buffer has bytes leaves every byte outside it (20_memory.md R41). -/
theorem sameOutside_store {x : Buffer} {ds : List Byte} (s : State) (hlen : ds.length = x.len) :
    SameOutside x s (s.store x ds) := by
  intro addr hout
  have hapart : addr < x.base ∨ x.base + ds.length ≤ addr := by
    have := mt inBuffer_iff.2 (Bool.eq_false_iff.1 hout)
    omega
  exact Memory.read_writeRange_outside ds s.mem hapart

/-- Two buffers of one length that do not partially overlap are the same buffer or share no byte (20_memory.md R61). -/
theorem eq_or_outside_of_not_partialOverlap {a b : Buffer} {addr : Nat} (hlen : a.len = b.len)
    (hp : partialOverlap a b = false) (ha : inBuffer a addr = true) : a = b ∨ inBuffer b addr = false := by
  obtain ⟨base, len⟩ := a
  obtain ⟨base', len'⟩ := b
  have hapart := mt partialOverlap_iff.2 (Bool.eq_false_iff.1 hp)
  rw [Bool.eq_false_iff, Ne, inBuffer_iff, Buffer.mk.injEq]
  rw [inBuffer_iff] at ha
  simp only at hlen hapart ha ⊢
  omega

/-- A command that has a next state delivers one response and touches neither the inputs nor the platform
(10_state.md R30). -/
theorem exec_answered {i : Instr} {s t : State} (h : exec i s = .next t) : ∃ r, Answered s t r := by
  rcases exec_cases h with ⟨st, -, rfl⟩ | ⟨-, ⟨b, rfl⟩ | ⟨a, b, o, -, rfl⟩⟩ | ⟨x, ds, -, -, -, -, rfl⟩ <;>
    exact ⟨_, rfl, rfl, rfl⟩

/-- A command that changed a byte ended with OK, and the byte is one of its destination (10_state.md R31). -/
theorem exec_changed_byte {i : Instr} {s t : State} {addr : Nat} (h : exec i s = .next t)
    (hne : t.mem.read addr ≠ s.mem.read addr) :
    t.responses = s.responses ++ [0b0000#4] ∧ ∃ x, destinationsOf i = [x] ∧ inBuffer x addr = true := by
  rcases exec_cases h with ⟨st, -, rfl⟩ | ⟨-, ⟨b, rfl⟩ | ⟨a, b, o, -, rfl⟩⟩ | ⟨x, ds, hdest, hlen, -, -, rfl⟩
  · exact absurd rfl hne
  · exact absurd rfl hne
  · exact absurd rfl hne
  · refine ⟨rfl, x, hdest, ?_⟩
    by_contra hout
    exact hne (sameOutside_store s hlen addr (Bool.eq_false_iff.2 hout))

/-- A byte an ADD or a SUBTRACT changed is none of `b` unless `b` is `a` itself (20_memory.md R61). -/
theorem exec_two_buffers_changed_byte {i : Instr} {a b : Buffer} {s t : State} {addr : Nat}
    (hi : i = .add a b ∨ i = .subtract a b) (h : exec i s = .next t) (hne : t.mem.read addr ≠ s.mem.read addr)
    (ha : inBuffer a addr = true) : a = b ∨ inBuffer b addr = false := by
  rcases exec_two_buffers_passed hi h with hmem | ⟨hlen, hp⟩
  · exact absurd (by rw [hmem]) hne
  · exact eq_or_outside_of_not_partialOverlap hlen hp ha

/-- Settles O35: of the six instructions three have a destination, and the changed byte lies in it. -/
theorem onlyTheDestinationChanges : Obligations.OnlyTheDestinationChanges := by
  intro s t i h
  refine ⟨exec_answered h, fun addr hne => ?_⟩
  obtain ⟨hok, x, hdest, hx⟩ := exec_changed_byte h hne
  refine ⟨hok, x, hx, ?_⟩
  cases i with
  | equals a b => cases hdest
  | iszero a => cases hdest
  | compare a b => cases hdest
  | increment a amount =>
    cases hdest
    exact .inl ⟨amount, rfl⟩
  | add a b =>
    cases hdest
    exact .inr ⟨b, .inl rfl, exec_two_buffers_changed_byte (.inl rfl) h hne hx⟩
  | subtract a b =>
    cases hdest
    exact .inr ⟨b, .inr rfl, exec_two_buffers_changed_byte (.inr rfl) h hne hx⟩

/-! ### What the effect of an event depends on

The same memory and platform can stand in different surroundings: other events to come, other responses delivered
before. An operation is blind to them when running it in any surroundings gives what it gives without them, put back
into those surroundings. Every operation of the model is, which follows construction by construction. -/

/-- The machine with these events to come, its responses preceded by those of the past. -/
def State.amid (s : State) (coming : List Event) (past : List RspWord) : State :=
  { s with inputs := coming, responses := past ++ s.responses }

@[simp] theorem State.amid_mem (s : State) (coming : List Event) (past : List RspWord) :
    (s.amid coming past).mem = s.mem := rfl
theorem State.store_amid (s : State) (coming : List Event) (past : List RspWord) (x : Buffer) (ds : List Byte) :
    (s.amid coming past).store x ds = (s.store x ds).amid coming past := rfl
theorem State.deliver_amid (s : State) (coming : List Event) (past : List RspWord) (r : RspWord) :
    (s.amid coming past).deliver r = (s.deliver r).amid coming past := by
  simp [State.deliver, State.amid]

/-- The state with neither events to come nor responses: what the effect of an event may depend on (10_state.md R20). -/
def State.bare (s : State) : State := { s with inputs := [], responses := [] }

/-- Every state is its memory and platform amid its events and responses. -/
theorem State.bare_amid (s : State) (coming : List Event) :
    s.bare.amid coming s.responses = { s with inputs := coming } := by
  simp [State.bare, State.amid]

theorem State.bare_eq_bare {s t : State} (hm : s.mem = t.mem) (hh : s.holes = t.holes) : s.bare = t.bare := by
  simp [State.bare, hm, hh]

/-- The operation depends on neither the events to come nor the responses delivered. -/
def Blind (op : State → Answer) : Prop :=
  ∀ s coming past, op (s.amid coming past) = andThen (op s) fun u => .next (u.amid coming past)

theorem blind_next : Blind .next := fun _ _ _ => rfl

theorem blind_fault (f : Fault) : Blind fun _ => .fault f := fun _ _ _ => rfl

theorem blind_refused (r : Refusal) : Blind fun _ => .refused r := fun _ _ _ => rfl

theorem blind_complete (result : BitVec 2) : Blind (complete result) := fun s coming past =>
  congrArg Host.Outcome.next (s.deliver_amid coming past _)

theorem blind_raise (st : Status) : Blind (raise st) := fun s coming past =>
  congrArg Host.Outcome.next (s.deliver_amid coming past _)

theorem Blind.after_store {op : State → Answer} (h : Blind op) (x : Buffer) (ds : List Byte) :
    Blind fun s => op (s.store x ds) := fun s coming past => by
  simp only [State.store_amid, h (s.store x ds) coming past]

/-- A choice is blind where the condition is and both ways are. -/
theorem Blind.ite {c : State → Prop} [∀ s, Decidable (c s)] {yes no : State → Answer}
    (hc : ∀ s coming past, c (s.amid coming past) ↔ c s) (hy : Blind yes) (hn : Blind no) :
    Blind fun s => if c s then yes s else no s := fun s coming past => by
  by_cases h : c s
  · simpa only [if_pos h, if_pos ((hc s coming past).2 h)] using hy s coming past
  · simpa only [if_neg h, if_neg (mt (hc s coming past).1 h)] using hn s coming past

theorem Blind.andThen {op next : State → Answer} (h : Blind op) (hn : Blind next) :
    Blind fun s => andThen (op s) next := fun s coming past => by
  simp only [h s coming past]
  cases op s with
  | next u => exact hn u coming past
  | fault f => rfl
  | refused r => rfl

/-- The checks read the operands alone. -/
theorem Blind.checked {run : State → Answer} (h : Blind run) (cs : List (Option Status)) :
    Blind fun s => checked cs s run := by
  induction cs with
  | nil => exact h
  | cons c cs ih =>
    cases c with
    | none => exact ih
    | some st => exact blind_raise st

/-- Locating buffers reads the operands and the platform. -/
theorem Blind.located {run : State → Answer} (h : Blind run) (xs : List Buffer) :
    Blind fun s => located xs s run :=
  (Blind.ite (fun _ _ _ => Iff.rfl) h (blind_refused _)).checked _

/-- Reading a buffer reads memory. -/
theorem Blind.withBuffer {use : List Byte → State → Answer} (h : ∀ xs, Blind (use xs)) (x : Buffer) :
    Blind fun s => withBuffer x s fun xs => use xs s := fun s coming past => by
  simp only [Machine.withBuffer, State.amid_mem]
  cases s.mem.readRange x.base x.len with
  | none => exact blind_fault _ s coming past
  | some xs => exact h xs s coming past

theorem Blind.withBuffers {use : List Byte → List Byte → State → Answer} (h : ∀ xs ys, Blind (use xs ys))
    (a b : Buffer) : Blind fun s => withBuffers a b s fun xs ys => use xs ys s :=
  Blind.withBuffer (fun xs => Blind.withBuffer (h xs) b) a

/-- The meaning of every instruction is blind (10_state.md R20, R21). -/
theorem blind_exec (i : Instr) : Blind (exec i) := by
  cases i with
  | equals a b =>
    exact (Blind.ite (c := fun _ => a.len = b.len) (fun _ _ _ => Iff.rfl)
      (Blind.withBuffers (fun _ _ => blind_complete _) a b) (blind_complete _)).located _
  | iszero a => exact (Blind.withBuffer (fun _ => blind_complete _) a).located _
  | compare a b => exact ((Blind.withBuffers (fun _ _ => blind_complete _) a b).checked _).located _
  | increment a amount => exact (Blind.withBuffer (fun _ => (blind_complete _).after_store a _) a).located _
  | add a b =>
    exact ((Blind.withBuffers (fun _ _ => (blind_complete _).after_store a _) a b).checked _).located _
  | subtract a b =>
    exact ((Blind.withBuffers (fun _ _ => (blind_complete _).after_store a _) a b).checked _).located _

theorem blind_applyAccess (x : Access) : Blind (applyAccess x) := by
  cases x with
  | read addr => exact Blind.ite (fun _ _ _ => Iff.rfl) blind_next (blind_refused _)
  | write addr b => exact Blind.ite (fun _ _ _ => Iff.rfl) (fun _ _ _ => rfl) (blind_refused _)

theorem blind_applyAccesses (xs : List Access) : Blind (applyAccesses xs) := by
  induction xs with
  | nil => exact blind_next
  | cons x xs ih => exact (blind_applyAccess x).andThen ih

theorem blind_presentCommand (cmd : Descriptor) (during : List Access) : Blind (presentCommand cmd during) := by
  unfold presentCommand
  cases decode cmd with
  | error _ => exact (blind_raise _).andThen (blind_applyAccesses during)
  | ok i =>
    exact Blind.ite (c := fun _ => exclusive i during = true) (fun _ _ _ => Iff.rfl)
      ((blind_exec i).andThen (blind_applyAccesses during)) (blind_refused _)

theorem blind_abandonCommand (cmd : Descriptor) : Blind (abandonCommand cmd) := by
  unfold abandonCommand
  cases decode cmd with
  | error _ => exact blind_next
  | ok i => exact Blind.ite (fun _ _ _ => Iff.rfl) (fun _ _ _ => rfl) (blind_refused _)

/-- Whatever event comes, handling it is blind to what came before it and to what comes after. -/
theorem blind_handleEvent (e : Event) : Blind (handleEvent e) := by
  cases e with
  | present cmd during => exact blind_presentCommand cmd during
  | access x => exact blind_applyAccess x
  | reset => exact blind_next
  | resetDuring cmd => exact blind_abandonCommand cmd

/-- A step is its event handled with nothing around it, put back amid the events left and the responses so far. -/
theorem step_eq_bare {s : State} {e : Event} {rest : List Event} (h : s.inputs = e :: rest) :
    step s = andThen (handleEvent e s.bare) fun u => .next (u.amid rest s.responses) := by
  rw [step_of_inputs h, ← State.bare_amid, blind_handleEvent e s.bare rest s.responses]

/-- Settles O19: both steps are the same event handled in the same bare state. -/
theorem effectDependsOnCommandAndMemoryOnly : Obligations.EffectDependsOnCommandAndMemoryOnly := by
  intro s t e rs rt hm hh hs ht
  rw [step_eq_bare hs, step_eq_bare ht, State.bare_eq_bare hm hh]
  cases handleEvent e t.bare with
  | next u =>
    refine ⟨fun s' hs' => ?_, fun f hf => (by cases hf), fun r hr => (by cases hr)⟩
    cases hs'
    exact ⟨u.amid rt t.responses, u.responses, rfl, rfl, rfl, rfl⟩
  | fault f => exact ⟨fun s' hs' => (by cases hs'), fun f' hf => hf, fun r hr => (by cases hr)⟩
  | refused r => exact ⟨fun s' hs' => (by cases hs'), fun f hf => (by cases hf), fun r' hr => hr⟩

end Sys2Proof.Machine
end

section
/-!
PROOFS. What every reachable state satisfies (20_memory.md R40, R44; 30_encoding.md R82): memory in canonical form and
within ValidAddr, every response one of the five words. Each operation of the model keeps it.
-/

namespace Sys2Proof.Machine

/-! ### The words the engine delivers -/

theorem rspWord_void_legal (st : Status) : rspWord st voidResult ∈ legalResponses := by
  cases st <;> decide

theorem rspWord_bool_legal (b : Bool) : rspWord .ok (boolResult b) ∈ legalResponses := by
  cases b <;> decide

theorem rspWord_order_legal (o : Ordering) : rspWord .ok (orderResult o) ∈ legalResponses := by
  cases o <;> decide

/-! ### The canonical form of memory -/

theorem inRange_iff {x : Buffer} : inRange x = true ↔ x.base + x.len ≤ Config.addrSpace := by
  simp [inRange]

/-- Storing into a buffer in range keeps the canonical form (20_memory.md R40, R43). -/
theorem State.store_wf {s : State} {x : Buffer} {ds : List Byte} (h : s.mem.wf) (hr : inRange x = true)
    (hlen : ds.length = x.len) : (s.store x ds).mem.wf :=
  Memory.wf_writeRange ds h (hlen ▸ inRange_iff.1 hr)

/-- A command keeps the canonical form. -/
theorem exec_keeps_wf {i : Instr} {s t : State} (h : exec i s = .next t) (hs : s.mem.wf) : t.mem.wf := by
  rcases exec_cases h with ⟨st, -, rfl⟩ | ⟨-, ⟨b, rfl⟩ | ⟨a, b, o, -, rfl⟩⟩ | ⟨x, ds, -, hlen, hr, -, rfl⟩
  · exact hs
  · exact hs
  · exact hs
  · exact State.store_wf hs hr hlen

/-- An access of another agent keeps the canonical form. -/
theorem applyAccess_keeps_wf {x : Access} {s t : State} (h : applyAccess x s = .next t) (hs : s.mem.wf) :
    t.mem.wf := by
  rcases applyAccess_cases h with ⟨addr, -, rfl⟩ | ⟨addr, b, -, -, rfl⟩
  · exact hs
  · exact Memory.wf_write _ b hs addr.isLt

/-! ### The invariant under each update of the state -/

theorem State.Inv.deliver {s : State} {r : RspWord} (h : s.Inv) (hr : r ∈ legalResponses) : (s.deliver r).Inv := by
  obtain ⟨hwf, hvalid, hresp⟩ := h
  refine ⟨hwf, hvalid, fun q hq => ?_⟩
  rcases List.mem_append.1 hq with hq | hq
  · exact hresp q hq
  · exact List.mem_singleton.1 hq ▸ hr

theorem State.Inv.withMem {s : State} {m : Memory} (h : s.Inv) (hwf : m.wf)
    (hvalid : ∀ c ∈ m, s.validAddr c.1 = true) : (s.withMem m).Inv := by
  obtain ⟨-, -, hresp⟩ := h
  exact ⟨hwf, hvalid, hresp⟩

/-- Digits stored into a buffer in range and in ValidAddr (20_memory.md R43, R44). -/
theorem State.Inv.store {s : State} {x : Buffer} {ds : List Byte} (h : s.Inv) (hx : Placed s x)
    (hlen : ds.length = x.len) : (s.store x ds).Inv := by
  have ⟨hwf, hvalid, _⟩ := h
  obtain ⟨hr, hv⟩ := hx
  refine h.withMem (State.store_wf hwf hr hlen) fun c hc => ?_
  rcases Memory.mem_writeRange hc with ⟨hlo, hhi⟩ | hc
  · exact (s.validRange_iff x.base x.len).1 hv c.1 hlo (hlen ▸ hhi)
  · exact hvalid c hc

/-- Forgetting bytes leaves fewer listed (70_reset_and_hazards.md R202). -/
theorem State.Inv.forgetBuffers {s : State} (h : s.Inv) (xs : List Buffer) :
    (s.withMem (xs.foldl (fun m x => m.forgetRange x.base x.len) s.mem)).Inv := by
  induction xs generalizing s with
  | nil => exact h
  | cons x xs ih =>
    have ⟨hwf, hvalid, _⟩ := h
    exact ih (h.withMem (Memory.wf_forgetRange x.base x.len hwf) fun c hc => hvalid c (List.mem_of_mem_filter hc))

/-! ### The invariant under each operation -/

/-- The operation takes a state that meets the invariant to one that does. -/
def KeepsInv (op : State → Answer) : Prop := ∀ s t, s.Inv → op s = .next t → t.Inv

theorem keepsInv_next : KeepsInv .next := by
  rintro s _ h ⟨⟩
  exact h

theorem keepsInv_raise (st : Status) : KeepsInv (raise st) := by
  rintro s _ h ⟨⟩
  exact h.deliver (rspWord_void_legal st)

theorem KeepsInv.andThen {op next : State → Answer} (h : KeepsInv op) (hn : KeepsInv next) :
    KeepsInv fun s => andThen (op s) next := by
  intro s t hs ht
  obtain ⟨u, hu, ht⟩ := andThen_eq_next ht
  exact hn u t (h s u hs hu) ht

theorem keepsInv_exec (i : Instr) : KeepsInv (exec i) := by
  intro s t hs h
  rcases exec_cases h with ⟨st, -, rfl⟩ | ⟨-, ⟨b, rfl⟩ | ⟨a, b, o, -, rfl⟩⟩ | ⟨x, ds, -, hlen, hr, hv, rfl⟩
  · exact hs.deliver (rspWord_void_legal st)
  · exact hs.deliver (rspWord_bool_legal b)
  · exact hs.deliver (rspWord_order_legal o)
  · exact (hs.store ⟨hr, hv⟩ hlen).deliver (rspWord_void_legal .ok)

theorem keepsInv_applyAccess (x : Access) : KeepsInv (applyAccess x) := by
  intro s t hs h
  have ⟨hwf, hvalid, _⟩ := hs
  rcases applyAccess_cases h with ⟨addr, -, rfl⟩ | ⟨addr, b, -, hv, rfl⟩
  · exact hs
  · refine hs.withMem (applyAccess_keeps_wf h hwf) fun c hc => ?_
    rcases Memory.mem_write hc with rfl | hc
    · exact hv
    · exact hvalid c hc

theorem keepsInv_applyAccesses (xs : List Access) : KeepsInv (applyAccesses xs) := by
  induction xs with
  | nil => exact keepsInv_next
  | cons x xs ih => exact (keepsInv_applyAccess x).andThen ih

/-- Where a presented command has a next state, it was answered BAD_COMMAND because its descriptor is illegal, or its
instruction ran with exclusive access kept; the accesses of the other agents follow (30_encoding.md R86; 20_memory.md
R50, R52). -/
theorem presentCommand_next {cmd : Descriptor} {during : List Access} {s t : State}
    (h : presentCommand cmd during s = .next t) :
    andThen (raise .badCommand s) (applyAccesses during) = .next t ∨
      ∃ i, decode cmd = .ok i ∧ exclusive i during = true ∧ andThen (exec i s) (applyAccesses during) = .next t := by
  unfold presentCommand at h
  cases hd : decode cmd with
  | error e => exact .inl (by simpa only [hd] using h)
  | ok i =>
    rw [hd] at h
    simp only at h
    split_ifs at h with hx
    exact .inr ⟨i, rfl, hx, h⟩

theorem keepsInv_presentCommand (cmd : Descriptor) (during : List Access) : KeepsInv (presentCommand cmd during) := by
  intro s t hs h
  have hduring := keepsInv_applyAccesses during
  rcases presentCommand_next h with h | ⟨i, -, -, h⟩
  · exact (keepsInv_raise .badCommand).andThen hduring s t hs h
  · exact (keepsInv_exec i).andThen hduring s t hs h

/-- Where a reset in mid-command has a next state, memory is as it was or the destination counts as unwritten
(70_reset_and_hazards.md R202). -/
theorem abandonCommand_next {cmd : Descriptor} {s t : State} (h : abandonCommand cmd s = .next t) :
    t = s ∨ ∃ i, decode cmd = .ok i ∧
      t = s.withMem ((destinationsOf i).foldl (fun m x => m.forgetRange x.base x.len) s.mem) := by
  unfold abandonCommand at h
  cases hd : decode cmd with
  | error e =>
    rw [hd] at h
    cases h
    exact .inl rfl
  | ok i =>
    rw [hd] at h
    simp only at h
    split_ifs at h
    cases h
    exact .inr ⟨i, rfl, rfl⟩

theorem keepsInv_abandonCommand (cmd : Descriptor) : KeepsInv (abandonCommand cmd) := by
  intro s t hs h
  rcases abandonCommand_next h with rfl | ⟨i, -, rfl⟩
  · exact hs
  · exact hs.forgetBuffers _

theorem keepsInv_handleEvent (e : Event) : KeepsInv (handleEvent e) := by
  cases e with
  | present cmd during => exact keepsInv_presentCommand cmd during
  | access x => exact keepsInv_applyAccess x
  | reset => exact keepsInv_next
  | resetDuring cmd => exact keepsInv_abandonCommand cmd

/-- Settles O13: the idle step changes nothing, and every other one handles an event. -/
theorem everyStepKeepsTheInvariant : Obligations.EveryStepKeepsTheInvariant := by
  intro s t hs h
  cases hin : s.inputs with
  | nil =>
    simp only [step, stepInputs, hin] at h
    cases h
    exact hs
  | cons e rest =>
    rw [step_of_inputs hin] at h
    exact keepsInv_handleEvent e { s with inputs := rest } t hs h

end Sys2Proof.Machine
end

section
/-!
PROOFS. Atomicity and exclusive access (20_memory.md R50 to R57): what a command does is fixed by the bytes of the
buffers it names, and it writes no byte but its destination's; so it commutes with whatever keeps exclusive access
towards it, and a run that breaks it is refused.
-/

namespace Sys2Proof.Machine

/-! ### The effect of a command -/

/-- What a command that completes does: it writes digits from the base of a buffer on, none where it writes nothing,
and it answers. -/
structure Effect where
  dest : Buffer
  digits : List Byte
  answer : RspWord

def Effect.on (e : Effect) (s : State) : State := (s.store e.dest e.digits).deliver e.answer

/-- The address is that of a byte the effect writes. -/
def Effect.Writes (e : Effect) (addr : Nat) : Prop :=
  e.dest.base ≤ addr ∧ addr < e.dest.base + e.digits.length

/-- Every byte the effect writes is one of these buffers'. -/
def Effect.Within (e : Effect) (xs : List Buffer) : Prop :=
  ∀ addr, e.Writes addr → ∃ x ∈ xs, inBuffer x addr = true

@[simp] theorem Effect.on_holes (e : Effect) (s : State) : (e.on s).holes = s.holes := rfl
@[simp] theorem Effect.on_responses (e : Effect) (s : State) : (e.on s).responses = s.responses ++ [e.answer] := rfl

theorem Effect.read_on_written {e : Effect} {addr : Nat} (h : e.Writes addr) (s : State) :
    (e.on s).mem.read addr = e.digits[addr - e.dest.base]? :=
  (Memory.read_writeRange e.digits s.mem e.dest.base addr).trans (if_pos h)

theorem Effect.read_on_other {e : Effect} {addr : Nat} (h : ¬e.Writes addr) (s : State) :
    (e.on s).mem.read addr = s.mem.read addr :=
  (Memory.read_writeRange e.digits s.mem e.dest.base addr).trans (if_neg h)

/-- Two effects that write no common byte leave the same bytes in either order. -/
theorem Effect.read_on_on {e f : Effect} {addr : Nat} (h : ¬(e.Writes addr ∧ f.Writes addr)) (s : State) :
    (e.on (f.on s)).mem.read addr = (f.on (e.on s)).mem.read addr := by
  by_cases he : e.Writes addr
  · have hf : ¬f.Writes addr := fun hf => h ⟨he, hf⟩
    rw [read_on_written he, read_on_other hf, read_on_written he]
  · rw [read_on_other he]
    by_cases hf : f.Writes addr
    · rw [read_on_written hf, read_on_written hf]
    · rw [read_on_other hf, read_on_other hf, read_on_other he]

/-- An effect and a byte written outside it leave the same state in either order. -/
theorem Effect.on_write {e : Effect} {addr : Nat} {b : Byte} {s : State} (h : ¬e.Writes addr)
    (hl : (e.on (s.withMem (s.mem.write addr b))).mem.wf) (hr : ((e.on s).mem.write addr b).wf) :
    e.on (s.withMem (s.mem.write addr b)) = (e.on s).withMem ((e.on s).mem.write addr b) := by
  have hmem : (e.on (s.withMem (s.mem.write addr b))).mem = (e.on s).mem.write addr b := by
    refine Memory.ext_read hl hr fun other => ?_
    by_cases he : e.Writes other
    · have hne : other ≠ addr := fun heq => h (heq ▸ he)
      rw [read_on_written he, Memory.read_write_other _ b hne, read_on_written he]
    · rw [read_on_other he, State.withMem_mem, Memory.read_write, Memory.read_write, read_on_other he]
  exact congrArg (State.withMem (e.on s)) hmem

/-! ### The effect is fixed by the bytes of the buffers named

An operation is local when, where it has a next state, it has one and the same effect on every state with the same
platform and the same bytes in the buffers it names. Every operation of the model is, which follows construction by
construction. -/

/-- The two states have the same platform and the same bytes in these buffers. -/
def AgreeOn (xs : List Buffer) (s s' : State) : Prop :=
  s'.holes = s.holes ∧ ∀ x ∈ xs, ∀ addr, inBuffer x addr = true → s'.mem.read addr = s.mem.read addr

theorem AgreeOn.refl (xs : List Buffer) (s : State) : AgreeOn xs s s := ⟨rfl, fun _ _ _ _ => rfl⟩

theorem AgreeOn.symm {xs : List Buffer} {s s' : State} (h : AgreeOn xs s s') : AgreeOn xs s' s :=
  ⟨h.1.symm, fun x hx addr ha => (h.2 x hx addr ha).symm⟩

theorem AgreeOn.readRange {xs : List Buffer} {s s' : State} (h : AgreeOn xs s s') {x : Buffer} (hx : x ∈ xs) :
    s'.mem.readRange x.base x.len = s.mem.readRange x.base x.len :=
  Memory.readRange_congr fun addr hlo hhi => h.2 x hx addr (inBuffer_iff.2 ⟨hlo, hhi⟩)

theorem AgreeOn.validBuffers {xs : List Buffer} {s s' : State} (h : AgreeOn xs s s') (ys : List Buffer) :
    s'.validBuffers ys = s.validBuffers ys := by
  simp only [State.validBuffers, State.validRange_congr h.1]

/-- An effect within some buffers leaves the bytes of every buffer apart from them. -/
theorem Effect.agreeOn_on {e : Effect} {written xs : List Buffer} (he : e.Within written)
    (hapart : ∀ x ∈ written, ∀ y ∈ xs, ∀ addr, ¬(inBuffer x addr = true ∧ inBuffer y addr = true)) (s : State) :
    AgreeOn xs s (e.on s) := by
  refine ⟨rfl, fun y hy addr hya => Effect.read_on_other (fun hw => ?_) s⟩
  obtain ⟨x, hx, hxa⟩ := he addr hw
  exact hapart x hx y hy addr ⟨hxa, hya⟩

/-- The operation reads these buffers alone and writes within those. -/
def LocalTo (named written : List Buffer) (op : State → Answer) : Prop :=
  ∀ s t, op s = .next t →
    ∃ e : Effect, e.Within written ∧ ∀ s', AgreeOn named s s' → op s' = .next (e.on s')

section
variable {named written : List Buffer}

/-- An operation that only answers writes nothing. -/
theorem localTo_deliver (r : RspWord) : LocalTo named written fun s => .next (s.deliver r) := fun _ _ _ =>
  ⟨⟨⟨0, 0⟩, [], r⟩, fun addr hw => absurd hw.2 (Nat.not_lt_zero addr), fun _ _ => rfl⟩

theorem localTo_complete (result : BitVec 2) : LocalTo named written (complete result) := localTo_deliver _

theorem localTo_raise (st : Status) : LocalTo named written (raise st) := localTo_deliver _

theorem localTo_refused (r : Refusal) : LocalTo named written fun _ => .refused r := fun _ _ h => by cases h

/-- An operation that stores digits and answers writes within the buffer, when the digits fit it. -/
theorem localTo_complete_store {x : Buffer} {ds : List Byte} (hx : x ∈ written) (hlen : ds.length ≤ x.len)
    (result : BitVec 2) : LocalTo named written fun s => complete result (s.store x ds) := fun _ _ _ => by
  refine ⟨⟨x, ds, rspWord .ok result⟩, fun addr hw => ⟨x, hx, inBuffer_iff.2 ⟨hw.1, ?_⟩⟩, fun _ _ => rfl⟩
  exact hw.2.trans_le (Nat.add_le_add_left hlen x.base)

/-- A choice is local where the condition is and both ways are. -/
theorem LocalTo.ite {c : State → Prop} [∀ s, Decidable (c s)] {yes no : State → Answer}
    (hc : ∀ s s', AgreeOn named s s' → (c s' ↔ c s)) (hy : LocalTo named written yes)
    (hn : LocalTo named written no) : LocalTo named written fun s => if c s then yes s else no s := by
  intro s t h
  by_cases hs : c s
  · simp only [if_pos hs] at h
    obtain ⟨e, he, hon⟩ := hy s t h
    exact ⟨e, he, fun s' ha => by simp only [if_pos ((hc s s' ha).2 hs), hon s' ha]⟩
  · simp only [if_neg hs] at h
    obtain ⟨e, he, hon⟩ := hn s t h
    exact ⟨e, he, fun s' ha => by simp only [if_neg (mt (hc s s' ha).1 hs), hon s' ha]⟩

theorem LocalTo.checked {run : State → Answer} (h : LocalTo named written run) (cs : List (Option Status)) :
    LocalTo named written fun s => checked cs s run := by
  induction cs with
  | nil => exact h
  | cons c cs ih =>
    cases c with
    | none => exact ih
    | some st => exact localTo_raise st

theorem LocalTo.located {run : State → Answer} (h : LocalTo named written run) (xs : List Buffer) :
    LocalTo named written fun s => located xs s run :=
  (LocalTo.ite (fun s s' ha => by rw [ha.validBuffers]) h (localTo_refused _)).checked _

theorem LocalTo.withBuffer {x : Buffer} {use : List Byte → State → Answer} (hx : x ∈ named)
    (h : ∀ xs, xs.length = x.len → LocalTo named written (use xs)) :
    LocalTo named written fun s => withBuffer x s fun xs => use xs s := by
  intro s t ht
  obtain ⟨xs, hr, hu⟩ := withBuffer_next ht
  obtain ⟨e, he, hon⟩ := h xs (Memory.readRange_length hr) s t hu
  refine ⟨e, he, fun s' ha => ?_⟩
  simp only [Machine.withBuffer, ha.readRange hx, hr, hon s' ha]

theorem LocalTo.withBuffers {a b : Buffer} {use : List Byte → List Byte → State → Answer} (ha : a ∈ named)
    (hb : b ∈ named)
    (h : ∀ xs ys, xs.length = a.len → ys.length = b.len → LocalTo named written (use xs ys)) :
    LocalTo named written fun s => withBuffers a b s fun xs ys => use xs ys s :=
  LocalTo.withBuffer ha fun xs hxs => LocalTo.withBuffer hb fun ys hys => h xs ys hxs hys

end

theorem addDigits_length_le (carry : Nat) (xs ys : List Byte) : (addDigits carry xs ys).length ≤ xs.length := by
  induction xs generalizing carry ys with
  | nil => cases ys <;> exact le_rfl
  | cons x xs ih =>
    cases ys with
    | nil => exact Nat.zero_le _
    | cons y ys => exact Nat.succ_le_succ (ih _ ys)

theorem subtractDigits_length_le (borrow : Nat) (xs ys : List Byte) :
    (subtractDigits borrow xs ys).length ≤ xs.length := by
  induction xs generalizing borrow ys with
  | nil => cases ys <;> exact le_rfl
  | cons x xs ih =>
    cases ys with
    | nil => exact Nat.zero_le _
    | cons y ys => exact Nat.succ_le_succ (ih _ ys)

/-- Every instruction reads the buffers it names and writes within its destination (20_memory.md R41, R50). -/
theorem localTo_exec (i : Instr) : LocalTo (buffersOf i) (destinationsOf i) (exec i) := by
  cases i with
  | equals a b =>
    exact (LocalTo.ite (c := fun _ => a.len = b.len) (fun _ _ _ => Iff.rfl)
      (LocalTo.withBuffers (by simp [buffersOf]) (by simp [buffersOf]) fun _ _ _ _ => localTo_complete _)
      (localTo_complete _)).located _
  | iszero a => exact (LocalTo.withBuffer (by simp [buffersOf]) fun _ _ => localTo_complete _).located _
  | compare a b =>
    exact ((LocalTo.withBuffers (by simp [buffersOf]) (by simp [buffersOf])
      fun _ _ _ _ => localTo_complete _).checked _).located _
  | increment a amount =>
    exact (LocalTo.withBuffer (by simp [buffersOf]) fun xs hxs => localTo_complete_store (List.mem_singleton_self a)
      ((incrementDigits_length amount xs).trans hxs).le _).located _
  | add a b =>
    exact ((LocalTo.withBuffers (by simp [buffersOf]) (by simp [buffersOf]) fun xs ys hxs _ =>
      localTo_complete_store (List.mem_singleton_self a) (hxs ▸ addDigits_length_le 0 xs ys) _).checked _).located _
  | subtract a b =>
    exact ((LocalTo.withBuffers (by simp [buffersOf]) (by simp [buffersOf]) fun xs ys hxs _ =>
      localTo_complete_store (List.mem_singleton_self a) (hxs ▸ subtractDigits_length_le 0 xs ys) _).checked
        _).located _

/-- A command that completes has one effect, the same on every state that agrees on the buffers it names. -/
theorem exec_effect {i : Instr} {s t : State} (h : exec i s = .next t) :
    ∃ e : Effect, e.Within (destinationsOf i) ∧ t = e.on s ∧
      ∀ s', AgreeOn (buffersOf i) s s' → exec i s' = .next (e.on s') := by
  obtain ⟨e, he, hon⟩ := localTo_exec i s t h
  refine ⟨e, he, ?_, hon⟩
  have hs := h.symm.trans (hon s (AgreeOn.refl _ s))
  cases hs
  rfl

/-- A command names the buffer it writes (20_memory.md R41). -/
theorem mem_buffersOf_of_mem_destinationsOf {i : Instr} {x : Buffer} (h : x ∈ destinationsOf i) : x ∈ buffersOf i := by
  cases i with
  | equals a b => cases h
  | iszero a => cases h
  | compare a b => cases h
  | increment a amount => exact h
  | add a b => exact List.mem_cons.2 (.inl (List.mem_singleton.1 h))
  | subtract a b => exact List.mem_cons.2 (.inl (List.mem_singleton.1 h))

/-! ### Commands that commute -/

/-- Settles O54: neither effect touches a byte the other command reads or writes, so each command has the effect it has
when it comes first, and the two leave the same bytes. -/
theorem compatibleCommandsCommute : Obligations.CompatibleCommandsCommute := by
  rintro s t u i j hwf ⟨hij, hji⟩ hi hj
  obtain ⟨e, he, rfl, hei⟩ := exec_effect hi
  obtain ⟨f, hf, rfl, hfj⟩ := exec_effect hj
  have hj' : exec j s = .next (f.on s) := hfj s (e.agreeOn_on he hij s).symm
  have hi' : exec i (f.on s) = .next (e.on (f.on s)) := hei _ (f.agreeOn_on hf hji s)
  have hdisjoint : ∀ addr, ¬(e.Writes addr ∧ f.Writes addr) := by
    rintro addr ⟨hew, hfw⟩
    obtain ⟨x, hx, hxa⟩ := he addr hew
    obtain ⟨y, hy, hya⟩ := hf addr hfw
    exact hij x hx y (mem_buffersOf_of_mem_destinationsOf hy) addr ⟨hxa, hya⟩
  have hmem : (e.on (f.on s)).mem = (f.on (e.on s)).mem :=
    Memory.ext_read (exec_keeps_wf hi' (exec_keeps_wf hj' hwf)) (exec_keeps_wf hj (exec_keeps_wf hi hwf))
      fun addr => Effect.read_on_on (hdisjoint addr) s
  exact ⟨f.on s, e.on (f.on s), e.answer, f.answer, hj', hi', hmem, rfl, by simp, rfl, by simp⟩

/-! ### Accesses of other agents while a command runs -/

theorem accessAllowed_read {i : Instr} {addr : BitVec 32} :
    accessAllowed i (.read addr) = true ↔ ∀ x ∈ destinationsOf i, inBuffer x addr.toNat = false := by
  simp [accessAllowed]

theorem accessAllowed_write {i : Instr} {addr : BitVec 32} {b : Byte} :
    accessAllowed i (.write addr b) = true ↔ ∀ x ∈ buffersOf i, inBuffer x addr.toNat = false := by
  simp [accessAllowed]

theorem exclusive_iff {i : Instr} {during : List Access} :
    exclusive i during = true ↔ ∀ x ∈ during, accessAllowed i x = true := List.all_eq_true

/-- Writing a byte of none of the buffers leaves their bytes. -/
theorem agreeOn_write {xs : List Buffer} {addr : Nat} (h : ∀ x ∈ xs, inBuffer x addr = false) (s : State) (b : Byte) :
    AgreeOn xs s (s.withMem (s.mem.write addr b)) := by
  refine ⟨rfl, fun x hx other ho => Memory.read_write_other s.mem b ?_⟩
  rintro rfl
  simp [h x hx] at ho

/-- An allowed access may come before the command instead of after it (20_memory.md R52). -/
theorem exec_after_access {i : Instr} {x : Access} {s t u : State} (hwf : s.mem.wf) (hx : accessAllowed i x = true)
    (hi : exec i s = .next t) (ha : applyAccess x t = .next u) :
    ∃ v, applyAccess x s = .next v ∧ exec i v = .next u := by
  have hwfu : u.mem.wf := applyAccess_keeps_wf ha (exec_keeps_wf hi hwf)
  obtain ⟨e, he, rfl, hon⟩ := exec_effect hi
  rcases applyAccess_cases ha with ⟨addr, rfl, rfl⟩ | ⟨addr, b, rfl, hv, rfl⟩
  · have hread : applyAccess (.read addr) s = .next s := by
      simp only [applyAccess] at ha ⊢
      split_ifs at ha with hv
      exact if_pos hv
    exact ⟨s, hread, hi⟩
  · have hout := accessAllowed_write.1 hx
    have hwrite : applyAccess (.write addr b) s = .next (s.withMem (s.mem.write addr.toNat b)) := if_pos hv
    have hexec := hon _ (agreeOn_write hout s b)
    have hapart : ¬e.Writes addr.toNat := fun hw => by
      obtain ⟨y, hy, hya⟩ := he _ hw
      simp [hout y (mem_buffersOf_of_mem_destinationsOf hy)] at hya
    refine ⟨_, hwrite, ?_⟩
    rw [hexec, Effect.on_write hapart (exec_keeps_wf hexec (applyAccess_keeps_wf hwrite hwf)) hwfu]

/-- Settles O55, by induction on the accesses: each in turn is moved before the command. -/
theorem allowedAccessesCommuteWithTheCommand : Obligations.AllowedAccessesCommuteWithTheCommand := by
  intro s t u i during hwf hx hi ha
  rw [exclusive_iff] at hx
  induction during generalizing s t with
  | nil =>
    cases ha
    exact ⟨s, rfl, hi⟩
  | cons x xs ih =>
    obtain ⟨t', hat, has⟩ := andThen_eq_next ha
    obtain ⟨s', hfirst, hi'⟩ := exec_after_access hwf (hx x List.mem_cons_self) hi hat
    obtain ⟨v, hrest, hv⟩ := ih s' t' (applyAccess_keeps_wf hfirst hwf)
      (fun y hy => hx y (List.mem_cons_of_mem x hy)) hi' has
    refine ⟨v, ?_, hv⟩
    rw [applyAccesses, hfirst, andThen_next, hrest]

/-! ### Exclusive access broken -/

/-- A legal command whose exclusive access another agent breaks is refused (20_memory.md R53). -/
theorem presentCommand_of_broken {cmd : Descriptor} {during : List Access} {i : Instr} (s : State)
    (hd : decode cmd = .ok i) (hx : exclusive i during = false) :
    presentCommand cmd during s = .refused .exclusiveAccessBroken := by
  simp [presentCommand, hd, hx]

/-- Settles O56: the access at that byte is not allowed, so exclusive access is not kept. -/
theorem brokenExclusivityIsRefused : Obligations.BrokenExclusivityIsRefused := by
  intro s cmd during rest i x addr hin hd hx hbreak
  have hbroken : exclusive i during = false := by
    rw [Bool.eq_false_iff, Ne, exclusive_iff]
    intro hall
    rcases hbreak with ⟨hmem, b, hw⟩ | ⟨hmem, hr⟩
    · have := accessAllowed_write.1 (hall _ hw) x hmem
      simp [hx] at this
    · have := accessAllowed_read.1 (hall _ hr) x hmem
      simp [hx] at this
  rw [step_of_inputs hin]
  exact presentCommand_of_broken _ hd hbroken

end Sys2Proof.Machine
end

section
/-!
PROOFS. Where the buffers of a command lie (20_memory.md R43, R44) and where it stops: past the top of memory it answers
BAD_COMMAND, outside ValidAddr it is refused, and nothing stops it but such a byte or one never written.
-/

namespace Sys2Proof.Machine

/-- Every command locates the buffers it names before anything else (60_exceptions.md R176, checks 3 and 4). -/
theorem exec_eq_located (i : Instr) : ∃ run, ∀ s, exec i s = located (buffersOf i) s run := by
  cases i <;> exact ⟨_, fun _ => rfl⟩

/-- Settles O30: check 3 or 4 fails. -/
theorem buffersPastTheTopAreRejected : Obligations.BuffersPastTheTopAreRejected := by
  refine ⟨fun s i x hx htop => ?_, fun base hb => inRange_iff.2 hb.le⟩
  have hr : inRange x = false := Bool.eq_false_iff.2 fun h => absurd (inRange_iff.1 h) (Nat.not_le.2 htop)
  obtain ⟨run, he⟩ := exec_eq_located i
  exact (he s).trans (located_of_past_top hx hr run)

/-- A command whose buffers are in range is refused where a byte of one is outside ValidAddr (20_memory.md R44). -/
theorem exec_of_outside {i : Instr} {s : State} {x : Buffer} {addr : Nat} (hr : ∀ y ∈ buffersOf i, inRange y = true)
    (hx : x ∈ buffersOf i) (ha : inBuffer x addr = true) (hv : s.validAddr addr = false) :
    exec i s = .refused .outsideValidAddr := by
  obtain ⟨run, he⟩ := exec_eq_located i
  obtain ⟨hlo, hhi⟩ := inBuffer_iff.1 ha
  have hrange : s.validRange x.base x.len = false := Bool.eq_false_iff.2 fun h => by
    simp [(s.validRange_iff x.base x.len).1 h addr hlo hhi] at hv
  exact (he s).trans (located_of_outside hr hx hrange run)

/-- Settles O39: each of the ten commands names `a`, and its buffers are in range. -/
theorem accessOutsideValidAddrIsRefused : Obligations.AccessOutsideValidAddrIsRefused := by
  intro s a amount addr hra ha hv
  have hone : ∀ y ∈ [a], inRange y = true := by simpa using hra
  refine ⟨exec_of_outside hone (by simp [buffersOf]) ha hv, exec_of_outside hone (by simp [buffersOf]) ha hv,
    fun b hrb => ?_⟩
  have hab : ∀ y ∈ [a, b], inRange y = true := by simp [hra, hrb]
  have hba : ∀ y ∈ [b, a], inRange y = true := by simp [hra, hrb]
  have first {i : Instr} (hi : buffersOf i = [a, b]) : exec i s = .refused .outsideValidAddr :=
    exec_of_outside (hi ▸ hab) (by simp [hi]) ha hv
  have second {i : Instr} (hi : buffersOf i = [b, a]) : exec i s = .refused .outsideValidAddr :=
    exec_of_outside (hi ▸ hba) (by simp [hi]) ha hv
  exact ⟨first rfl, second rfl, first rfl, second rfl, first rfl, second rfl, first rfl, second rfl⟩

/-! ### What can stop a command

A fault needs an unwritten byte, and a refusal a byte outside ValidAddr, of one of the buffers. Every operation a
command is made of stops nowhere else. -/

/-- In this state the answer stops only on a byte of these buffers that was never written or is outside ValidAddr. -/
def StopsOnlyOn (xs : List Buffer) (s : State) (o : Answer) : Prop :=
  (∀ f, o = .fault f → f = .unwrittenByte ∧ ∃ x ∈ xs, ∃ addr, inBuffer x addr = true ∧ s.mem.read addr = none) ∧
    ∀ r, o = .refused r → r = .outsideValidAddr ∧ ∃ x ∈ xs, ∃ addr, inBuffer x addr = true ∧ s.validAddr addr = false

section
variable {xs : List Buffer} {s : State}

theorem stopsOnlyOn_next (t : State) : StopsOnlyOn xs s (.next t) :=
  ⟨fun _ h => (nomatch h), fun _ h => nomatch h⟩

theorem stopsOnlyOn_complete (result : BitVec 2) (t : State) : StopsOnlyOn xs s (complete result t) :=
  stopsOnlyOn_next _

theorem stopsOnlyOn_raise (st : Status) (t : State) : StopsOnlyOn xs s (raise st t) := stopsOnlyOn_next _

theorem StopsOnlyOn.checked {run : State → Answer} (h : StopsOnlyOn xs s (run s)) (cs : List (Option Status)) :
    StopsOnlyOn xs s (checked cs s run) := by
  rcases checked_cases cs s run with ⟨-, he⟩ | ⟨st, -, he⟩ <;> rw [he]
  · exact h
  · exact stopsOnlyOn_raise st s

theorem StopsOnlyOn.located {run : State → Answer} (h : StopsOnlyOn xs s (run s)) :
    StopsOnlyOn xs s (located xs s run) := by
  rcases located_cases xs s run with ⟨-, he⟩ | ⟨-, he⟩ | ⟨-, ⟨x, hx, hv⟩, he⟩ <;> rw [he]
  · exact h
  · exact stopsOnlyOn_raise _ s
  · refine ⟨fun _ h => (nomatch h), fun r hr => ?_⟩
    cases hr
    have hbyte := mt (s.validRange_iff x.base x.len).2 (Bool.eq_false_iff.1 hv)
    push Not at hbyte
    obtain ⟨addr, hlo, hhi, hva⟩ := hbyte
    exact ⟨rfl, x, hx, addr, inBuffer_iff.2 ⟨hlo, hhi⟩, Bool.eq_false_iff.2 hva⟩

theorem StopsOnlyOn.withBuffer {x : Buffer} {use : List Byte → Answer} (hx : x ∈ xs)
    (h : ∀ ds, StopsOnlyOn xs s (use ds)) : StopsOnlyOn xs s (withBuffer x s use) := by
  rcases withBuffer_cases x s use with ⟨ds, -, he⟩ | ⟨hr, he⟩ <;> rw [he]
  · exact h ds
  · refine ⟨fun f hf => ?_, fun _ h => nomatch h⟩
    cases hf
    obtain ⟨addr, hlo, hhi, hn⟩ := Memory.readRange_eq_none.1 hr
    exact ⟨rfl, x, hx, addr, inBuffer_iff.2 ⟨hlo, hhi⟩, hn⟩

theorem StopsOnlyOn.withBuffers {a b : Buffer} {use : List Byte → List Byte → Answer} (ha : a ∈ xs) (hb : b ∈ xs)
    (h : ∀ ds es, StopsOnlyOn xs s (use ds es)) : StopsOnlyOn xs s (withBuffers a b s use) :=
  StopsOnlyOn.withBuffer ha fun ds => StopsOnlyOn.withBuffer hb (h ds)

end

theorem stopsOnlyOn_exec (i : Instr) (s : State) : StopsOnlyOn (buffersOf i) s (exec i s) := by
  cases i with
  | equals a b =>
    refine StopsOnlyOn.located ?_
    split
    · exact StopsOnlyOn.withBuffers (by simp [buffersOf]) (by simp [buffersOf]) fun _ _ => stopsOnlyOn_complete _ _
    · exact stopsOnlyOn_complete _ _
  | iszero a =>
    exact StopsOnlyOn.located (StopsOnlyOn.withBuffer (by simp [buffersOf]) fun _ => stopsOnlyOn_complete _ _)
  | compare a b =>
    refine StopsOnlyOn.located (StopsOnlyOn.checked ?_ _)
    exact StopsOnlyOn.withBuffers (by simp [buffersOf]) (by simp [buffersOf]) fun _ _ => stopsOnlyOn_complete _ _
  | increment a amount =>
    exact StopsOnlyOn.located (StopsOnlyOn.withBuffer (by simp [buffersOf]) fun _ => stopsOnlyOn_complete _ _)
  | add a b =>
    refine StopsOnlyOn.located (StopsOnlyOn.checked ?_ _)
    exact StopsOnlyOn.withBuffers (by simp [buffersOf]) (by simp [buffersOf]) fun _ _ => stopsOnlyOn_complete _ _
  | subtract a b =>
    refine StopsOnlyOn.located (StopsOnlyOn.checked ?_ _)
    exact StopsOnlyOn.withBuffers (by simp [buffersOf]) (by simp [buffersOf]) fun _ _ => stopsOnlyOn_complete _ _

/-- Settles O37. -/
theorem commandsStopOnlyOutsideTheContract : Obligations.CommandsStopOnlyOutsideTheContract :=
  fun s i => stopsOnlyOn_exec i s

end Sys2Proof.Machine
end

section
/-!
PROOFS. What a command answers on buffers in range and in ValidAddr, by its checks 5 and 6 and by the digits it reads,
and from that the rules of 20_memory.md on short loads, overlap and empty buffers (R48, R60, R61, R62).
-/

namespace Sys2Proof.Machine

/-! ### Loads of the low digits -/

/-- The low digits make the number modulo the matching power (20_memory.md R48). -/
theorem val_take (xs : List Byte) {k : Nat} (hk : k ≤ xs.length) : val (xs.take k) = val xs % 256 ^ k := by
  induction k generalizing xs with
  | zero => simp [Nat.mod_one]
  | succ k ih =>
    cases xs with
    | nil => simp at hk
    | cons x xs =>
      have hx := x.isLt
      have hq : (x.toNat + 256 * val xs) / 256 = val xs := by omega
      have hm : (x.toNat + 256 * val xs) % 256 = x.toNat := by omega
      rw [List.take_succ_cons, val_cons, ih xs (by simpa using hk), val_cons, Nat.pow_succ, Nat.mul_comm (256 ^ k),
        Nat.mod_mul, hq, hm]

/-- A shorter range at the same base reads as the first of the bytes. -/
theorem Memory.readRange_take {m : Memory} {base n k : Nat} {xs : List Byte} (h : m.readRange base n = some xs)
    (hk : k ≤ n) : m.readRange base k = some (xs.take k) := by
  obtain ⟨hlen, hread⟩ := Memory.readRange_eq_some.1 h
  refine Memory.readRange_eq_some.2 ⟨by rw [List.length_take, hlen, Nat.min_eq_left hk], fun j hj => ?_⟩
  rw [hread j (hj.trans_le hk), List.getElem?_take_of_lt hj]

/-- Settles O53: the shorter load reads the first digits, and they make the number modulo the power. -/
theorem shorterLoadSeesTheLowDigits : Obligations.ShorterLoadSeesTheLowDigits := by
  rintro s a xs k ⟨-, -, hr⟩ hk
  exact ⟨xs.take k, Memory.readRange_take hr hk, val_take xs (Memory.readRange_length hr ▸ hk)⟩

/-! ### What each operation answers where its buffers are placed -/

section
variable {s : State} {a b : Buffer} {xs ys : List Byte}

theorem Holds.placed (h : Holds s a xs) : Placed s a := by
  obtain ⟨hr, hv, -⟩ := h
  exact ⟨hr, hv⟩

theorem Holds.length (h : Holds s a xs) : xs.length = a.len := by
  obtain ⟨-, -, hread⟩ := h
  exact Memory.readRange_length hread

theorem located_two (ha : Placed s a) (hb : Placed s b) (run : State → Answer) : located [a, b] s run = run s :=
  located_of_placed (List.forall_mem_cons.2 ⟨ha, List.forall_mem_singleton.2 hb⟩) run

theorem located_one (ha : Placed s a) (run : State → Answer) : located [a] s run = run s :=
  located_of_placed (List.forall_mem_singleton.2 ha) run

/-- Check 5: EQUALS answers false, the others LENGTH_MISMATCH (60_exceptions.md R171; 40_equals_iszero.md R101). -/
theorem exec_equals_of_lengths (ha : Placed s a) (hb : Placed s b) (hn : a.len ≠ b.len) :
    exec (.equals a b) s = .next (s.deliver 0b0000#4) :=
  (located_two ha hb _).trans (if_neg hn)

theorem exec_compare_of_lengths (ha : Placed s a) (hb : Placed s b) (hn : a.len ≠ b.len) :
    exec (.compare a b) s = .next (s.deliver 0b0100#4) :=
  (located_two ha hb _).trans (by rw [checkLengths_of_ne hn]; rfl)

theorem exec_add_of_lengths (ha : Placed s a) (hb : Placed s b) (hn : a.len ≠ b.len) :
    exec (.add a b) s = .next (s.deliver 0b0100#4) :=
  (located_two ha hb _).trans (by rw [checkLengths_of_ne hn]; rfl)

theorem exec_subtract_of_lengths (ha : Placed s a) (hb : Placed s b) (hn : a.len ≠ b.len) :
    exec (.subtract a b) s = .next (s.deliver 0b0100#4) :=
  (located_two ha hb _).trans (by rw [checkLengths_of_ne hn]; rfl)

/-- Check 6: a partial overlap of buffers of one length (60_exceptions.md R174, case 5). -/
theorem exec_add_of_overlap (ha : Placed s a) (hb : Placed s b) (hlen : a.len = b.len)
    (ho : partialOverlap a b = true) : exec (.add a b) s = .next (s.deliver 0b1000#4) :=
  (located_two ha hb _).trans (by rw [checkLengths_of_eq hlen, checkOverlap_of ho]; rfl)

theorem exec_subtract_of_overlap (ha : Placed s a) (hb : Placed s b) (hlen : a.len = b.len)
    (ho : partialOverlap a b = true) : exec (.subtract a b) s = .next (s.deliver 0b1000#4) :=
  (located_two ha hb _).trans (by rw [checkLengths_of_eq hlen, checkOverlap_of ho]; rfl)

/-- Every check passed: the operation answers of the digits it reads. -/
theorem exec_equals_of_holds (ha : Holds s a xs) (hb : Holds s b ys) (hlen : a.len = b.len) :
    exec (.equals a b) s = .next (s.deliver (rspWord .ok (boolResult (digitsEqual xs ys)))) :=
  (located_two ha.placed hb.placed _).trans ((if_pos hlen).trans (withBuffers_of_holds ha hb _))

theorem exec_iszero_of_holds (ha : Holds s a xs) :
    exec (.iszero a) s = .next (s.deliver (rspWord .ok (boolResult (digitsZero xs)))) :=
  (located_one ha.placed _).trans (withBuffer_of_holds ha _)

theorem exec_compare_of_holds (ha : Holds s a xs) (hb : Holds s b ys) (hlen : a.len = b.len) :
    exec (.compare a b) s = .next (s.deliver (rspWord .ok (orderResult (digitsCompare xs ys)))) := by
  refine (located_two ha.placed hb.placed _).trans ?_
  rw [checkLengths_of_eq hlen]
  exact withBuffers_of_holds ha hb _

theorem exec_increment_of_holds (ha : Holds s a xs) (amount : Nat) :
    exec (.increment a amount) s = .next ((s.store a (incrementDigits amount xs)).deliver 0b0000#4) :=
  (located_one ha.placed _).trans (withBuffer_of_holds ha _)

theorem exec_add_of_holds (ha : Holds s a xs) (hb : Holds s b ys) (hlen : a.len = b.len)
    (ho : partialOverlap a b = false) :
    exec (.add a b) s = .next ((s.store a (addDigits 0 xs ys)).deliver 0b0000#4) := by
  refine (located_two ha.placed hb.placed _).trans ?_
  rw [checkLengths_of_eq hlen, checkOverlap_of_not ho]
  exact withBuffers_of_holds ha hb _

theorem exec_subtract_of_holds (ha : Holds s a xs) (hb : Holds s b ys) (hlen : a.len = b.len)
    (ho : partialOverlap a b = false) :
    exec (.subtract a b) s = .next ((s.store a (subtractDigits 0 xs ys)).deliver 0b0000#4) := by
  refine (located_two ha.placed hb.placed _).trans ?_
  rw [checkLengths_of_eq hlen, checkOverlap_of_not ho]
  exact withBuffers_of_holds ha hb _

/-! ### The response words of the operations that read -/

/-- EQUALS of buffers of equal length says whether they hold the same bytes (40_equals_iszero.md R100). -/
theorem exec_equals_answers (ha : Holds s a xs) (hb : Holds s b ys) (hlen : a.len = b.len) :
    exec (.equals a b) s = .next (s.deliver (if xs = ys then 0b0001#4 else 0b0000#4)) := by
  have hiff := digitsEqual_iff (ha.length.trans (hlen.trans hb.length.symm))
  rw [exec_equals_of_holds ha hb hlen]
  by_cases h : xs = ys
  · rw [hiff.2 h, if_pos h]
    rfl
  · rw [Bool.eq_false_iff.2 (mt hiff.1 h), if_neg h]
    rfl

/-- COMPARE of buffers of equal length gives the order of their numbers (41_compare.md R110, R111). -/
theorem exec_compare_answers (ha : Holds s a xs) (hb : Holds s b ys) (hlen : a.len = b.len) :
    exec (.compare a b) s = .next (s.deliver
      (if val xs < val ys then 0b0011#4 else if val xs = val ys then 0b0000#4 else 0b0001#4)) := by
  rw [exec_compare_of_holds ha hb hlen, digitsCompare_eq (ha.length.trans (hlen.trans hb.length.symm)), compare_nat]
  split_ifs <;> rfl

end

/-! ### Overlap and aliasing -/

/-- Settles O33: two different ranges of one length that meet overlap partially; the readers do not ask. -/
theorem partialOverlapIsLegalForReadersOnly : Obligations.PartialOverlapIsLegalForReadersOnly := by
  intro s a b hpa hpb hab hba
  refine ⟨fun hlen hne => ?_, fun xs ys ha hb => ?_⟩
  · have ho : partialOverlap a b = true := partialOverlap_iff.2 ⟨hne, hlen ▸ hab, hba⟩
    exact ⟨exec_add_of_overlap hpa hpb hlen ho, exec_subtract_of_overlap hpa hpb hlen ho⟩
  · by_cases hlen : a.len = b.len
    · rw [if_neg (not_not.2 hlen)]
      exact ⟨exec_equals_answers ha hb hlen, exec_compare_answers ha hb hlen⟩
    · have hne : xs ≠ ys := fun h => hlen (ha.length.symm.trans ((congrArg List.length h).trans hb.length))
      rw [if_neg hne, if_pos hlen]
      exact ⟨exec_equals_of_lengths hpa hpb hlen, exec_compare_of_lengths hpa hpb hlen⟩

/-- A buffer does not partially overlap itself (20_memory.md R60). -/
theorem partialOverlap_self (a : Buffer) : partialOverlap a a = false :=
  Bool.eq_false_iff.2 fun h => (partialOverlap_iff.1 h).1 rfl

/-- The digits stored into a buffer are what it then holds. -/
theorem State.readRange_store (s : State) {x : Buffer} {ds : List Byte} (hlen : ds.length = x.len) :
    (s.store x ds).mem.readRange x.base x.len = some ds :=
  hlen ▸ Memory.readRange_writeRange s.mem x.base ds

theorem addDigits_self_val (xs : List Byte) : val (addDigits 0 xs xs) = (2 * val xs) % 256 ^ xs.length := by
  rw [val_addDigits 0 rfl, Nat.add_zero, Nat.two_mul]

/-- A buffer less itself is zero in every digit (20_memory.md R60). -/
theorem subtractDigits_self (xs : List Byte) : ∀ d ∈ subtractDigits 0 xs xs, d = 0 := by
  rw [← val_eq_zero_iff, val_subtractDigits rfl, Nat.add_sub_of_le (val_lt xs).le, Nat.mod_self]

/-- Settles O32: every operation runs on the one sequence of digits read twice. -/
theorem exactAliasingIsLegal : Obligations.ExactAliasingIsLegal := by
  intro s a xs h
  have ho := partialOverlap_self a
  refine ⟨by rw [exec_equals_answers h h rfl, if_pos rfl],
    by rw [exec_compare_answers h h rfl, if_neg (lt_irrefl _), if_pos rfl], ?_, ?_⟩
  · have hlen : (addDigits 0 xs xs).length = a.len := (addDigits_length 0 rfl).trans h.length
    exact ⟨_, _, exec_add_of_holds h h rfl ho, s.readRange_store hlen, h.length ▸ addDigits_self_val xs,
      sameOutside_store s hlen, rfl, rfl, rfl⟩
  · have hlen : (subtractDigits 0 xs xs).length = a.len := (subtractDigits_length 0 rfl).trans h.length
    refine ⟨_, exec_subtract_of_holds h h rfl ho, fun k hk => ?_, sameOutside_store s hlen, rfl, rfl, rfl⟩
    obtain ⟨-, hread⟩ := Memory.readRange_eq_some.1 (s.readRange_store hlen)
    have hk' : k < (subtractDigits 0 xs xs).length := hlen ▸ hk
    calc (s.store a (subtractDigits 0 xs xs)).mem.read (a.base + k)
        = (subtractDigits 0 xs xs)[k]? := hread k hk
      _ = some (subtractDigits 0 xs xs)[k] := List.getElem?_eq_getElem hk'
      _ = some 0 := congrArg some (subtractDigits_self xs _ (List.getElem_mem hk'))

/-! ### Empty buffers -/

/-- A buffer of length 0 is legal at every base, whatever memory and the platform hold (20_memory.md R43, R62). -/
theorem holds_empty (s : State) {p : Nat} (hp : p < 2 ^ 32) : Holds s ⟨p, 0⟩ [] :=
  ⟨inRange_iff.2 hp.le, rfl, rfl⟩

theorem partialOverlap_empty (p q : Nat) : partialOverlap ⟨p, 0⟩ ⟨q, 0⟩ = false := by
  simp [partialOverlap]

/-- Settles O31: an empty buffer holds no digits, and a non-empty one beside it has another length. -/
theorem emptyBuffersAreLegalOperands : Obligations.EmptyBuffersAreLegalOperands := by
  refine ⟨fun s p q amount hp hq => ?_, fun s p x hp hx hpos => ?_⟩
  · have ha := holds_empty s hp
    have hb := holds_empty s hq
    have ho := partialOverlap_empty p q
    exact ⟨exec_equals_of_holds ha hb rfl, exec_iszero_of_holds ha, exec_compare_of_holds ha hb rfl,
      exec_increment_of_holds ha amount, exec_add_of_holds ha hb rfl ho, exec_subtract_of_holds ha hb rfl ho⟩
  · have he := (holds_empty s hp).placed
    have hlen : (⟨p, 0⟩ : Buffer).len ≠ x.len := hpos.ne
    exact ⟨exec_equals_of_lengths he hx hlen, exec_equals_of_lengths hx he hlen.symm,
      exec_compare_of_lengths he hx hlen, exec_compare_of_lengths hx he hlen.symm,
      exec_add_of_lengths he hx hlen, exec_add_of_lengths hx he hlen.symm,
      exec_subtract_of_lengths he hx hlen, exec_subtract_of_lengths hx he hlen.symm⟩

end Sys2Proof.Machine
end

section
/-!
PROOFS. The statements about descriptors (30_encoding.md R71 to R75, R85, R86): a descriptor is its eight fields, those
of a legal command fix its row and its operands, and each row is a mask and a match.
-/

namespace Sys2Proof

open Laws (rowOf)

/-! ### The fields of a legal command -/

/-- The eight fields are those of a legal command of the row: its opcode, reserved and unused fields zero
(30_encoding.md R75). -/
def Fields.LegalFor (op : Opcode) (f : Fields) : Prop :=
  f.opcode = opcodeValue op ∧ f.rsv0 = 0 ∧ f.rsv1 = 0 ∧ unusedZero op f = true

/-- The OPCODE field selects the row whose value it holds (30_encoding.md R72). -/
theorem opcodeOf_eq_some_iff {code : BitVec 8} {op : Opcode} : opcodeOf code = some op ↔ code = opcodeValue op := by
  constructor
  · unfold opcodeOf
    split <;> intro h <;> cases h <;> exact BitVec.eq_of_toNat_eq (by assumption)
  · rintro rfl
    cases op <;> rfl

/-- Decoding, in one line: the fields are those of a legal command of a row, and the command is that row's with the
operands they hold (30_encoding.md R85). -/
theorem decodeFields_eq_ok_iff {f : Fields} {i : Instr} :
    decodeFields f = .ok i ↔ ∃ op, f.LegalFor op ∧ operandsOf op f = i := by
  constructor
  · intro h
    unfold decodeFields at h
    split at h
    next => cases h
    next op hop =>
      split_ifs at h with hrsv hunused
      obtain ⟨hrsv0, hrsv1⟩ := not_or.1 hrsv
      exact ⟨op, ⟨opcodeOf_eq_some_iff.1 hop, not_not.1 hrsv0, not_not.1 hrsv1, hunused⟩, Except.ok.inj h⟩
  · rintro ⟨op, ⟨hop, hrsv0, hrsv1, hunused⟩, rfl⟩
    simp [decodeFields, opcodeOf_eq_some_iff.2 hop, hrsv0, hrsv1, hunused]

theorem rowOf_operandsOf (op : Opcode) (f : Fields) : rowOf (operandsOf op f) = op := by
  cases op <;> rfl

/-- A descriptor decodes to an instruction exactly when its fields are legal for the instruction's row and hold its
operands. -/
theorem decode_eq_ok_iff {cmd : Descriptor} {i : Instr} :
    decode cmd = .ok i ↔ (fieldsOf cmd).LegalFor (rowOf i) ∧ operandsOf (rowOf i) (fieldsOf cmd) = i := by
  rw [decode, decodeFields_eq_ok_iff]
  constructor
  · rintro ⟨op, hlegal, rfl⟩
    rw [rowOf_operandsOf]
    exact ⟨hlegal, rfl⟩
  · exact fun h => ⟨rowOf i, h⟩

/-- Legal fields of a row decode to a command of that row. -/
theorem decode_of_legalFor {cmd : Descriptor} {op : Opcode} (h : (fieldsOf cmd).LegalFor op) :
    decode cmd = .ok (operandsOf op (fieldsOf cmd)) :=
  decodeFields_eq_ok_iff.2 ⟨op, h, rfl⟩

/-! ### Operands and fields are inverse -/

/-- What a field holds fits it (30_encoding.md R73, R74). -/
theorem wellFormed_operandsOf (op : Opcode) (f : Fields) : (operandsOf op f).wellFormed = true := by
  have ha : (bufferA f).wellFormed = true := by simp [Buffer.wellFormed, bufferA, BitVec.isLt]
  have hb : (bufferB f).wellFormed = true := by simp [Buffer.wellFormed, bufferB, BitVec.isLt]
  have hamount : amountWellFormed f.amount.toNat = true := by simp [amountWellFormed, BitVec.isLt]
  cases op <;> simp [operandsOf, Instr.wellFormed, ha, hb, hamount]

/-- A buffer that fits its fields is read back from them. -/
theorem Buffer.ofNat_toNat {x : Buffer} (h : x.wellFormed = true) :
    (⟨(BitVec.ofNat 32 x.base).toNat, (BitVec.ofNat 32 x.len).toNat⟩ : Buffer) = x := by
  simp only [Buffer.wellFormed, Bool.and_eq_true, decide_eq_true_eq] at h
  obtain ⟨hbase, hlen⟩ := h
  rw [BitVec.toNat_ofNat, BitVec.toNat_ofNat, Nat.mod_eq_of_lt hbase, Nat.mod_eq_of_lt hlen]

theorem amount_ofNat_toNat {amount : Nat} (h : amountWellFormed amount = true) :
    (BitVec.ofNat 63 amount).toNat = amount := by
  rw [BitVec.toNat_ofNat, Nat.mod_eq_of_lt (of_decide_eq_true h)]

/-- The operands of a well-formed instruction are read back from its fields. -/
theorem operandsOf_fieldsOfInstr {i : Instr} (h : i.wellFormed = true) :
    operandsOf (rowOf i) (fieldsOfInstr i) = i := by
  cases i with
  | iszero a => exact congrArg Instr.iszero (Buffer.ofNat_toNat h)
  | increment a amount =>
    obtain ⟨ha, hamount⟩ := Bool.and_eq_true_iff.1 h
    exact congrArg₂ Instr.increment (Buffer.ofNat_toNat ha) (amount_ofNat_toNat hamount)
  | equals a b | compare a b | add a b | subtract a b =>
    obtain ⟨ha, hb⟩ := Bool.and_eq_true_iff.1 h
    exact congrArg₂ _ (Buffer.ofNat_toNat ha) (Buffer.ofNat_toNat hb)

/-- Legal fields are those of the instruction they hold the operands of: what its row does not use is zero. -/
theorem fieldsOfInstr_operandsOf {op : Opcode} {f : Fields} (h : f.LegalFor op) :
    fieldsOfInstr (operandsOf op f) = f := by
  obtain ⟨opcode, rsv0, aBase, aLen, bBase, bLen, amount, rsv1⟩ := f
  obtain ⟨rfl, rfl, rfl, hunused⟩ := h
  cases op <;> simp_all [unusedZero, operandsOf, fieldsOfInstr, fieldsTwo, fieldsOne, bufferA, bufferB]

/-- The fields of an instruction's descriptor are legal for its row (30_encoding.md R75). -/
theorem legalFor_fieldsOf_encode (i : Instr) : (fieldsOf (encode i)).LegalFor (rowOf i) := by
  cases i with
  | equals a b => exact Laws.CanonicalFields.equals a b
  | iszero a => exact Laws.CanonicalFields.iszero a
  | compare a b => exact Laws.CanonicalFields.compare a b
  | increment a amount => exact Laws.CanonicalFields.increment a amount
  | add a b => exact Laws.CanonicalFields.add a b
  | subtract a b => exact Laws.CanonicalFields.subtract a b

theorem decode_encode {i : Instr} (h : i.wellFormed = true) : decode (encode i) = .ok i := by
  refine decode_eq_ok_iff.2 ⟨legalFor_fieldsOf_encode i, ?_⟩
  rw [encode, fieldsOf_descriptorOf, operandsOf_fieldsOfInstr h]

theorem encode_of_decode {cmd : Descriptor} {i : Instr} (h : decode cmd = .ok i) : encode i = cmd := by
  obtain ⟨hlegal, hi⟩ := decode_eq_ok_iff.1 h
  calc encode i = descriptorOf (fieldsOfInstr (operandsOf (rowOf i) (fieldsOf cmd))) := by rw [hi, encode]
    _ = descriptorOf (fieldsOf cmd) := by rw [fieldsOfInstr_operandsOf hlegal]
    _ = cmd := descriptorOf_fieldsOf cmd

theorem wellFormed_of_decode {cmd : Descriptor} {i : Instr} (h : decode cmd = .ok i) : i.wellFormed = true := by
  obtain ⟨-, hi⟩ := decode_eq_ok_iff.1 h
  exact hi ▸ wellFormed_operandsOf _ _

end Sys2Proof

namespace Sys2Proof.Machine

/-- A field as a number is the field of R71 read as unsigned (30_encoding.md R73). -/
theorem cmdField_eq (cmd : Descriptor) (lo width : Nat) : cmdField cmd lo width = (cmd.extractLsb' lo width).toNat := by
  rw [BitVec.extractLsb'_toNat, Nat.shiftRight_eq_div_pow, cmdField]

/-- Settles O1: operands and fields are inverse both ways, and so are fields and descriptor. -/
theorem decodeInvertsEncode : Obligations.DecodeInvertsEncode := by
  refine ⟨fun i => decode_encode, fun cmd i h => ⟨wellFormed_of_decode h, encode_of_decode h⟩, fun cmd i h => ?_⟩
  obtain ⟨⟨-, hrsv0, hrsv1, hunused⟩, -⟩ := decode_eq_ok_iff.1 h
  simp only [cmdField_eq]
  refine ⟨congrArg BitVec.toNat hrsv0, congrArg BitVec.toNat hrsv1, ?_⟩
  cases i <;> simpa [unusedZero, Laws.rowOf, fieldsOf, BitVec.toNat_eq, and_assoc] using hunused

end Sys2Proof.Machine

namespace Sys2Proof

/-! ### Mask and match -/

/-- The mask of each row (30_encoding.md R85): every bit but those of the fields the operation uses. -/
def maskOf : Opcode → Descriptor
  | .iszero => 0xFFFFFFFFFFFFFFFFFFFFFFFFFFFFFFFF0000000000000000FFFFFFFF#224
  | .increment => 0x8000000000000000FFFFFFFFFFFFFFFF0000000000000000FFFFFFFF#224
  | .equals | .compare | .add | .subtract => 0xFFFFFFFFFFFFFFFF00000000000000000000000000000000FFFFFFFF#224

/-- The match of each row (30_encoding.md R85): its opcode, every other bit zero. -/
def matchOf (op : Opcode) : Descriptor := (opcodeValue op).setWidth 224

/-- The bits both descriptors have, field by field. -/
def Fields.and (f g : Fields) : Fields where
  opcode := f.opcode &&& g.opcode
  rsv0 := f.rsv0 &&& g.rsv0
  aBase := f.aBase &&& g.aBase
  aLen := f.aLen &&& g.aLen
  bBase := f.bBase &&& g.bBase
  bLen := f.bLen &&& g.bLen
  amount := f.amount &&& g.amount
  rsv1 := f.rsv1 &&& g.rsv1

theorem fieldsOf_and (d e : Descriptor) : fieldsOf (d &&& e) = (fieldsOf d).and (fieldsOf e) := by
  simp only [fieldsOf, Fields.and, BitVec.extractLsb'_and]

/-- The fields of a mask: OPCODE and the reserved fields whole, nothing of buffer `a`, and these bits of the two fields
of buffer `b` and of the scalar. -/
def Fields.mask (b : BitVec 32) (amount : BitVec 63) : Fields :=
  ⟨.allOnes 8, .allOnes 24, 0, 0, b, b, amount, .allOnes 1⟩

/-- The fields of each row's mask. -/
def maskFields : Opcode → Fields
  | .iszero => .mask (.allOnes 32) (.allOnes 63)
  | .increment => .mask (.allOnes 32) 0
  | .equals | .compare | .add | .subtract => .mask 0 (.allOnes 63)

/-- The fields of each row's match. -/
def matchFields (op : Opcode) : Fields := ⟨opcodeValue op, 0, 0, 0, 0, 0, 0, 0⟩

theorem fieldsOf_maskOf (op : Opcode) : fieldsOf (maskOf op) = maskFields op := by
  cases op <;> rfl

theorem fieldsOf_matchOf (op : Opcode) : fieldsOf (matchOf op) = matchFields op := by
  cases op <;> rfl

theorem fieldsOf_inj {d e : Descriptor} : fieldsOf d = fieldsOf e ↔ d = e :=
  ⟨fun h => by rw [← descriptorOf_fieldsOf d, h, descriptorOf_fieldsOf], congrArg fieldsOf⟩

/-- What is left of the fields under a row's mask is its match exactly when they are legal for the row: the mask keeps
or drops each field whole. -/
theorem Fields.and_maskFields_eq_iff {f : Fields} {op : Opcode} :
    f.and (maskFields op) = matchFields op ↔ f.LegalFor op := by
  cases op <;>
    simp [Fields.and, maskFields, Fields.mask, matchFields, Fields.LegalFor, unusedZero, -BitVec.reduceAllOnes,
      and_assoc, and_left_comm, and_comm]

/-- The bits of a descriptor under a row's mask are its match exactly when its fields are legal for the row. -/
theorem and_maskOf_eq_matchOf_iff {cmd : Descriptor} {op : Opcode} :
    cmd &&& maskOf op = matchOf op ↔ (fieldsOf cmd).LegalFor op := by
  rw [← fieldsOf_inj, fieldsOf_and, fieldsOf_maskOf, fieldsOf_matchOf, Fields.and_maskFields_eq_iff]

theorem decode_selects {cmd : Descriptor} {i : Instr} (h : decode cmd = .ok i) :
    cmd &&& maskOf (Laws.rowOf i) = matchOf (Laws.rowOf i) :=
  and_maskOf_eq_matchOf_iff.2 (decode_eq_ok_iff.1 h).1

theorem decode_of_selects {cmd : Descriptor} {op : Opcode} (h : cmd &&& maskOf op = matchOf op) :
    decode cmd = .ok (operandsOf op (fieldsOf cmd)) :=
  decode_of_legalFor (and_maskOf_eq_matchOf_iff.1 h)

end Sys2Proof

namespace Sys2Proof.Machine

/-- Settles O2: for each row, what decodes to it has its bits, and what has its bits decodes to it. -/
theorem decodeSelectsRowsByMaskAndMatch : Obligations.DecodeSelectsRowsByMaskAndMatch := fun _ =>
  ⟨⟨fun ⟨_, _, h⟩ => decode_selects h, fun h => ⟨_, _, decode_of_selects (op := .equals) h⟩⟩,
    ⟨fun ⟨_, h⟩ => decode_selects h, fun h => ⟨_, decode_of_selects (op := .iszero) h⟩⟩,
    ⟨fun ⟨_, _, h⟩ => decode_selects h, fun h => ⟨_, _, decode_of_selects (op := .compare) h⟩⟩,
    ⟨fun ⟨_, _, h⟩ => decode_selects h, fun h => ⟨_, _, decode_of_selects (op := .increment) h⟩⟩,
    ⟨fun ⟨_, _, h⟩ => decode_selects h, fun h => ⟨_, _, decode_of_selects (op := .add) h⟩⟩,
    ⟨fun ⟨_, _, h⟩ => decode_selects h, fun h => ⟨_, _, decode_of_selects (op := .subtract) h⟩⟩⟩

/-- An illegal descriptor is answered BAD_COMMAND, and the accesses of the other agents follow (30_encoding.md R86). -/
theorem presentCommand_of_illegal {cmd : Descriptor} (during : List Access) (s : State)
    (h : ∀ i, decode cmd ≠ .ok i) :
    presentCommand cmd during s = andThen (raise .badCommand s) (applyAccesses during) := by
  unfold presentCommand
  cases hd : decode cmd with
  | error e => rfl
  | ok i => exact absurd hd (h i)

/-- Settles O5: a descriptor that decodes has the match of its row, which is one of the six. -/
theorem illegalDescriptorsAnswerBadCommand : Obligations.IllegalDescriptorsAnswerBadCommand := by
  intro s cmd rest hin hrows
  have hillegal : ∀ i, decode cmd ≠ .ok i := fun i hd => by
    refine hrows (maskOf (Laws.rowOf i), matchOf (Laws.rowOf i)) ?_ (decode_selects hd)
    cases Laws.rowOf i <;> decide
  rw [step_of_inputs hin]
  exact presentCommand_of_illegal [] _ hillegal

/-! ### Operands -/

/-- Settles O3: the operands of the row, read through the fields of R71. -/
theorem decodedOperandsAreTheFields : Obligations.DecodedOperandsAreTheFields := by
  intro cmd i h
  obtain ⟨-, hi⟩ := decode_eq_ok_iff.1 h
  rw [← hi]
  simp only [cmdField_eq]
  cases Laws.rowOf i with
  | iszero => rfl
  | equals | compare | increment | add | subtract => exact ⟨rfl, rfl⟩

end Sys2Proof.Machine
end

section
/-!
PROOFS. The statements about the assembler text form (30_encoding.md R90 to R92).
-/

namespace Sys2Proof.Machine

/-- A form assembles to the instruction it names, where its numbers fit (30_encoding.md R90). -/
theorem assembleForm_of_instr {op : Opcode} {operands : List TextOperand} {i : Instr}
    (h : instrOfText op operands = some i) :
    assembleForm op operands = if i.wellFormed then some i else none := by
  simp only [assembleForm, h]

/-- What assembles is the instruction a form names, and its numbers fit. -/
theorem assembleForm_eq_some {op : Opcode} {operands : List TextOperand} {i : Instr}
    (h : assembleForm op operands = some i) : instrOfText op operands = some i ∧ i.wellFormed = true := by
  cases hi : instrOfText op operands with
  | none =>
    simp only [assembleForm, hi] at h
    cases h
  | some j =>
    rw [assembleForm_of_instr hi] at h
    split_ifs at h with hw
    cases h
    exact ⟨rfl, hw⟩

/-- What a line assembles to fits its fields. -/
theorem wellFormed_of_assembleLine {line : List Char} {i : Instr} (h : assembleLine line = some i) :
    i.wellFormed = true := by
  simp only [assembleLine] at h
  split at h
  · exact (assembleForm_eq_some h).2
  · cases h

/-- Settles O8: the form names its instruction, and whether that fits its fields decides. -/
theorem assemblerChecksFieldsOnly : Obligations.AssemblerChecksFieldsOnly := by
  intro op operands i hi
  rw [assembleForm_of_instr hi]
  exact ⟨fun hw => if_pos hw, fun hw => if_neg (Bool.eq_false_iff.1 hw)⟩

/-- Settles O7: the omitted scalar names the instruction with 1, and every other form is the one of its row. -/
theorem omittedScalarAssemblesAsOne : Obligations.OmittedScalarAssemblesAsOne := by
  refine ⟨fun base len => rfl, fun op operands i h => ?_⟩
  obtain ⟨hform, -⟩ := assembleForm_eq_some h
  unfold instrOfText at hform
  split at hform
  case h_2 base len => exact ⟨base, len, rfl⟩
  case h_4 base len => exact ⟨base, len, .inl rfl⟩
  case h_5 base len amount => exact ⟨base, len, .inr ⟨amount, rfl⟩⟩
  case h_8 => cases hform
  all_goals exact ⟨_, _, _, _, rfl⟩

/-- A line and a descriptor of one instruction: the descriptor decodes to what the line assembles to. -/
theorem decode_of_assembleLine {line : List Char} {i : Instr} {cmd : Descriptor} (hline : assembleLine line = some i)
    (hword : encode i = cmd) : assembleLine line = some i ∧ encode i = cmd ∧ decode cmd = .ok i :=
  ⟨hline, hword, hword ▸ decode_encode (wellFormed_of_assembleLine hline)⟩

/-- Settles O4: each line is assembled and encoded, and decoding inverts that. -/
theorem workedEncodingsAreTheSpecs : Obligations.WorkedEncodingsAreTheSpecs := by
  intro row hrow
  simp only [List.mem_cons, List.not_mem_nil, or_false] at hrow
  rcases hrow with rfl | rfl | rfl | rfl | rfl | rfl | rfl <;> exact decode_of_assembleLine (by decide) (by decide)

end Sys2Proof.Machine
end

section
/-!
PROOFS. The statements about responses (30_encoding.md R80 to R83): each presented command gets one, its STATUS and
RESULT are codes of R81 and R82, and no other event gets any.
-/

namespace Sys2Proof.Machine

/-! ### The response word -/

@[simp] theorem rspStatus_rspWord (st : Status) (result : BitVec 2) : rspStatus (rspWord st result) = statusCode st :=
  BitVec.extractLsb'_append_eq_left

@[simp] theorem rspResult_rspWord (st : Status) (result : BitVec 2) : rspResult (rspWord st result) = result :=
  BitVec.extractLsb'_append_eq_right

/-- Settles O6: STATUS and RESULT are the two halves of the word, and the codes are those of the tables. -/
theorem responseWordsShowStatusAndResult : Obligations.ResponseWordsShowStatusAndResult := by
  refine ⟨fun st r => ⟨rspStatus_rspWord st r, rspResult_rspWord st r⟩, rfl, rfl, rfl, rfl, rfl, ?_, ?_, ?_⟩ <;>
    rw [comparisonOf, rspResult_rspWord] <;> rfl

/-- What 30_encoding.md R83 says of a response, `comparing` being that its command is a COMPARE. -/
def KeepsToCodes (comparing : Prop) (r : RspWord) : Prop :=
  rspResult r ≠ 0b10#2 ∧ rspStatus r ≠ 0b11#2 ∧ (rspResult r = 0b11#2 → comparing) ∧
    (rspStatus r ≠ 0b00#2 → rspResult r = 0b00#2)

theorem KeepsToCodes.mono {p q : Prop} {r : RspWord} (h : KeepsToCodes p r) (hpq : p → q) : KeepsToCodes q r := by
  obtain ⟨hresult, hstatus, hcompare, herror⟩ := h
  exact ⟨hresult, hstatus, fun h3 => hpq (hcompare h3), herror⟩

/-- A void RESULT stands with any STATUS. -/
theorem keepsToCodes_void (comparing : Prop) (st : Status) : KeepsToCodes comparing (rspWord st voidResult) := by
  cases st <;> simp [KeepsToCodes, voidResult, statusCode]

theorem keepsToCodes_bool (comparing : Prop) (b : Bool) : KeepsToCodes comparing (rspWord .ok (boolResult b)) := by
  cases b <;> simp [KeepsToCodes, boolResult, statusCode]

/-- The RESULT of a COMPARE is the only one that can be 0b11. -/
theorem keepsToCodes_order {comparing : Prop} (h : comparing) (o : Ordering) :
    KeepsToCodes comparing (rspWord .ok (orderResult o)) := by
  cases o <;> simp [KeepsToCodes, orderResult, statusCode, h]

/-! ### One response for a command, none for any other event -/

/-- Nothing was delivered, and neither the platform nor what the outside does next has changed. -/
def Unanswered (s t : State) : Prop := t.responses = s.responses ∧ t.inputs = s.inputs ∧ t.holes = s.holes

theorem Unanswered.refl (s : State) : Unanswered s s := ⟨rfl, rfl, rfl⟩

theorem unanswered_withMem (s : State) (m : Memory) : Unanswered s (s.withMem m) := ⟨rfl, rfl, rfl⟩

theorem Unanswered.trans {s t u : State} (h : Unanswered s t) (h' : Unanswered t u) : Unanswered s u := by
  obtain ⟨hresponses, hinputs, hholes⟩ := h
  obtain ⟨hresponses', hinputs', hholes'⟩ := h'
  exact ⟨hresponses'.trans hresponses, hinputs'.trans hinputs, hholes'.trans hholes⟩

/-- What follows a response and delivers nothing leaves it the one response. -/
theorem answered_of_unanswered {s t u : State} {r : RspWord} (h : Answered s t r) (h' : Unanswered t u) :
    Answered s u r := by
  obtain ⟨hresponses, hinputs, hholes⟩ := h
  obtain ⟨hresponses', hinputs', hholes'⟩ := h'
  exact ⟨hresponses'.trans hresponses, hinputs'.trans hinputs, hholes'.trans hholes⟩

theorem applyAccess_unanswered {x : Access} {s t : State} (h : applyAccess x s = .next t) : Unanswered s t := by
  rcases applyAccess_cases h with ⟨addr, -, rfl⟩ | ⟨addr, b, -, -, rfl⟩
  · exact .refl _
  · exact unanswered_withMem _ _

theorem applyAccesses_unanswered {xs : List Access} {s t : State} (h : applyAccesses xs s = .next t) :
    Unanswered s t := by
  induction xs generalizing s with
  | nil =>
    cases h
    exact .refl _
  | cons x xs ih =>
    obtain ⟨u, hu, h⟩ := andThen_eq_next h
    exact (applyAccess_unanswered hu).trans (ih h)

theorem abandonCommand_unanswered {cmd : Descriptor} {s t : State} (h : abandonCommand cmd s = .next t) :
    Unanswered s t := by
  rcases abandonCommand_next h with rfl | ⟨i, -, rfl⟩
  · exact .refl _
  · exact unanswered_withMem _ _

/-- A command that has a next state delivers one response, which keeps to the codes (30_encoding.md R83). -/
theorem exec_answered_in_codes {i : Instr} {s t : State} (h : exec i s = .next t) :
    ∃ r, Answered s t r ∧ KeepsToCodes (∃ a b, i = .compare a b) r := by
  rcases exec_cases h with ⟨st, -, rfl⟩ | ⟨-, ⟨b, rfl⟩ | ⟨a, b, o, hi, rfl⟩⟩ | ⟨x, ds, -, -, -, -, rfl⟩
  · exact ⟨_, ⟨rfl, rfl, rfl⟩, keepsToCodes_void _ st⟩
  · exact ⟨_, ⟨rfl, rfl, rfl⟩, keepsToCodes_bool _ b⟩
  · exact ⟨_, ⟨rfl, rfl, rfl⟩, keepsToCodes_order ⟨a, b, hi⟩ o⟩
  · exact ⟨_, ⟨rfl, rfl, rfl⟩, keepsToCodes_void _ .ok⟩

/-- A descriptor presented, legal or not, gets one response, which keeps to the codes: the accesses of the other agents
deliver nothing. -/
theorem presentCommand_answered {cmd : Descriptor} {during : List Access} {s t : State}
    (h : presentCommand cmd during s = .next t) :
    ∃ r, Answered s t r ∧ KeepsToCodes (∃ a b, decode cmd = .ok (.compare a b)) r := by
  rcases presentCommand_next h with h | ⟨i, hd, -, h⟩
  · have hraised : Answered s (s.deliver (rspWord .badCommand voidResult)) (rspWord .badCommand voidResult) :=
      ⟨rfl, rfl, rfl⟩
    exact ⟨_, answered_of_unanswered hraised (applyAccesses_unanswered h), keepsToCodes_void _ .badCommand⟩
  · obtain ⟨u, hu, h⟩ := andThen_eq_next h
    obtain ⟨r, hr, hcodes⟩ := exec_answered_in_codes hu
    exact ⟨r, answered_of_unanswered hr (applyAccesses_unanswered h),
      hcodes.mono fun ⟨a, b, hi⟩ => ⟨a, b, hi ▸ hd⟩⟩

/-- All that an event can do at the response interface: a command presented is answered once, and nothing else is. -/
theorem handleEvent_cases {e : Event} {s t : State} (h : handleEvent e s = .next t) :
    (∃ cmd during r, e = .present cmd during ∧ Answered s t r ∧
        KeepsToCodes (∃ a b, decode cmd = .ok (.compare a b)) r) ∨
      ((∀ cmd during, e ≠ .present cmd during) ∧ Unanswered s t) := by
  cases e with
  | present cmd during =>
    obtain ⟨r, hr, hcodes⟩ := presentCommand_answered h
    exact .inl ⟨cmd, during, r, rfl, hr, hcodes⟩
  | access x => exact .inr ⟨nofun, applyAccess_unanswered h⟩
  | reset =>
    cases h
    exact .inr ⟨nofun, .refl _⟩
  | resetDuring cmd => exact .inr ⟨nofun, abandonCommand_unanswered h⟩

/-- Settles O11: the event is taken off the inputs and answered once or not at all. -/
theorem oneResponsePerCommand : Obligations.OneResponsePerCommand := by
  intro s t e rest hin h
  rw [step_of_inputs hin] at h
  rcases handleEvent_cases h with ⟨cmd, during, r, he, ⟨hresponses, hinputs, hholes⟩, -⟩ |
    ⟨hother, hresponses, hinputs, hholes⟩
  · exact ⟨hinputs, hholes, .inl ⟨cmd, during, r, he, hresponses⟩⟩
  · exact ⟨hinputs, hholes, .inr ⟨hother, hresponses⟩⟩

/-- Settles O12: a step that delivers a response presents a command, whose one response keeps to the codes. -/
theorem responsesNeverHoldUnusedCodes : Obligations.ResponsesNeverHoldUnusedCodes := by
  intro s t r h hr
  cases hin : s.inputs with
  | nil =>
    simp only [step, stepInputs, hin] at h
    cases h
    simp at hr
  | cons e rest =>
    rw [step_of_inputs hin] at h
    rcases handleEvent_cases h with ⟨cmd, during, r', rfl, ⟨hr', -, -⟩, hcodes⟩ | ⟨-, hnone, -, -⟩
    · obtain rfl : r' = r := by simpa [hr'] using hr
      exact hcodes.mono fun ⟨a, b, hd⟩ => ⟨cmd, during, rest, a, b, rfl, hd⟩
    · simp [hnone] at hr

end Sys2Proof.Machine
end

section
/-!
PROOFS. The two predicates (40_equals_iszero.md): EQUALS byte by byte (R100), and ISZERO as the caller's test for a
counter that has wrapped (R105).
-/

namespace Sys2Proof.Machine

/-! ### EQUALS -/

/-- Two ranges of one length hold the same digits exactly when they read the same byte at every index. -/
theorem Memory.readRange_eq_iff {m : Memory} {p q n : Nat} {xs ys : List Byte} (hx : m.readRange p n = some xs)
    (hy : m.readRange q n = some ys) : xs = ys ↔ ∀ k, k < n → m.read (p + k) = m.read (q + k) := by
  obtain ⟨hxlen, hxread⟩ := Memory.readRange_eq_some.1 hx
  obtain ⟨hylen, hyread⟩ := Memory.readRange_eq_some.1 hy
  constructor
  · rintro rfl k hk
    rw [hxread k hk, hyread k hk]
  · intro h
    refine List.ext_getElem? fun k => ?_
    rcases lt_or_ge k n with hk | hk
    · rw [← hxread k hk, h k hk, hyread k hk]
    · rw [List.getElem?_eq_none (hxlen.trans_le hk), List.getElem?_eq_none (hylen.trans_le hk)]

/-- Settles O20: check 5 answers where the lengths differ; where they agree, the digits are equal exactly when no byte
differs. -/
theorem equalsAnswersLengthAndByteEquality : Obligations.EqualsAnswersLengthAndByteEquality := by
  intro s a b hpa hpb
  refine ⟨exec_equals_of_lengths hpa hpb, fun xs ys hlen ha hb => ?_⟩
  have hbytes : xs = ys ↔ ∀ k, k < a.len → s.mem.read (a.base + k) = s.mem.read (b.base + k) := by
    obtain ⟨-, -, hra⟩ := ha
    obtain ⟨-, -, hrb⟩ := hb
    exact Memory.readRange_eq_iff hra (hlen ▸ hrb)
  rw [exec_equals_answers ha hb hlen]
  refine ⟨fun h => ?_, fun k hk hne => ?_⟩
  · rw [if_pos (hbytes.2 h)]
  · rw [if_neg fun h => hne (hbytes.1 h k hk)]

/-! ### ISZERO -/

/-- ISZERO says whether the number its buffer holds is zero (40_equals_iszero.md R104). -/
theorem exec_iszero_answers {s : State} {a : Buffer} {xs : List Byte} (h : Holds s a xs) :
    exec (.iszero a) s = .next (s.deliver (if val xs = 0 then 0b0001#4 else 0b0000#4)) := by
  have hiff : digitsZero xs = true ↔ val xs = 0 := digitsZero_iff.trans val_eq_zero_iff.symm
  rw [exec_iszero_of_holds h]
  by_cases hz : val xs = 0
  · rw [hiff.2 hz, if_pos hz]
    rfl
  · rw [Bool.eq_false_iff.2 (mt hiff.1 hz), if_neg hz]
    rfl

/-- The greatest number a buffer can hold is the one whose digits are all 0xFF. -/
theorem val_add_one_eq_pow_iff {xs : List Byte} : val xs + 1 = 256 ^ xs.length ↔ ∀ x ∈ xs, x = 0xFF#8 := by
  induction xs with
  | nil => simp
  | cons x xs ih =>
    have hx := x.isLt
    have hv := val_lt xs
    have hdigit : x = 0xFF#8 ↔ x.toNat = 255 := BitVec.toNat_inj.symm
    rw [List.forall_mem_cons, ← ih, hdigit, val_cons, List.length_cons, Nat.pow_succ]
    omega

/-- The one increment that wraps to zero (42_increment.md R123). -/
theorem val_increment_one_eq_zero_iff {xs : List Byte} :
    val (incrementDigits 1 xs) = 0 ↔ ∀ x ∈ xs, x = 0xFF#8 := by
  rw [val_incrementDigits, ← val_add_one_eq_pow_iff]
  constructor
  · intro h
    exact (Nat.succ_le_of_lt (val_lt xs)).antisymm (Nat.le_of_dvd (Nat.succ_pos _) (Nat.dvd_of_mod_eq_zero h))
  · intro h
    rw [h, Nat.mod_self]

/-- A buffer the caller may use holds the digits stored into it, also once a response is delivered. -/
theorem Holds.store_deliver {s : State} {a : Buffer} {xs ds : List Byte} (h : Holds s a xs)
    (hlen : ds.length = xs.length) (r : RspWord) : Holds ((s.store a ds).deliver r) a ds := by
  obtain ⟨hr, hv⟩ := h.placed
  exact ⟨hr, hv, s.readRange_store (hlen.trans h.length)⟩

/-- Settles O50: the buffer then holds the incremented digits, and they are zero exactly when the increment wrapped. -/
theorem iszeroTellsAWrappedCounter : Obligations.IszeroTellsAWrappedCounter := by
  intro s a xs h
  refine ⟨_, exec_increment_of_holds h 1, ?_⟩
  rw [exec_iszero_answers (h.store_deliver (incrementDigits_length 1 xs) _)]
  refine ⟨fun hall => ?_, fun x hx hne => ?_⟩
  · rw [if_pos (val_increment_one_eq_zero_iff.2 hall)]
  · rw [if_neg fun hz => hne (val_increment_one_eq_zero_iff.1 hz x hx)]

end Sys2Proof.Machine
end

section
/-!
PROOFS. COMPARE (41_compare.md): its answer is the order of the two numbers (R110), the highest differing digit decides
it (R111), and it orders buffers of one length strictly and totally (R112).
-/

namespace Sys2Proof.Machine

/-! ### The highest difference -/

/-- The highest digit at which two buffers differ decides the order of their numbers (41_compare.md R111). -/
theorem val_lt_of_highest_digit_lt {xs ys : List Byte} {k : Nat} {x y : Byte} (hx : xs[k]? = some x)
    (hy : ys[k]? = some y) (hlt : x.toNat < y.toNat) (habove : ∀ m, k < m → xs[m]? = ys[m]?) : val xs < val ys := by
  induction xs generalizing ys k with
  | nil => cases hx
  | cons x₀ xs ih =>
    cases ys with
    | nil => cases hy
    | cons y₀ ys =>
      have hx₀ := x₀.isLt
      rw [val_cons, val_cons]
      cases k with
      | zero =>
        cases hx
        cases hy
        have htail : xs = ys := List.ext_getElem? fun m => habove (m + 1) m.succ_pos
        rw [htail]
        omega
      | succ k =>
        have htail : val xs < val ys := ih hx hy fun m hm => habove (m + 1) (Nat.succ_lt_succ hm)
        omega

/-- Every digit of a buffer is the byte read at its address, and no digit lies above the last one. -/
theorem Holds.getElem? {s : State} {a : Buffer} {xs : List Byte} (h : Holds s a xs) (k : Nat) :
    xs[k]? = if k < a.len then s.mem.read (a.base + k) else none := by
  obtain ⟨-, -, hread⟩ := h
  obtain ⟨hlen, hbytes⟩ := Memory.readRange_eq_some.1 hread
  split_ifs with hk
  · exact (hbytes k hk).symm
  · exact List.getElem?_eq_none (hlen.trans_le (not_lt.1 hk))

/-- Settles O22: with every check passed, the scan down the digits gives the numeric order. -/
theorem compareAnswersNumericOrder : Obligations.CompareAnswersNumericOrder :=
  fun _ _ _ _ _ ha hb hlen => exec_compare_answers ha hb hlen

/-- Settles O23: whichever of the two bytes is the lower, its buffer holds the lower number. -/
theorem compareDecidesAtTheHighestDifference : Obligations.CompareDecidesAtTheHighestDifference := by
  intro s a b xs ys k x y ha hb hlen hk hrx hry hne habove
  have hx : xs[k]? = some x := by rw [ha.getElem?, if_pos hk, hrx]
  have hy : ys[k]? = some y := by rw [hb.getElem?, if_pos (hlen ▸ hk), hry]
  have hdigits : ∀ m, k < m → xs[m]? = ys[m]? := fun m hm => by
    rw [ha.getElem?, hb.getElem?, ← hlen]
    exact ite_congr rfl (habove m hm) fun _ => rfl
  rw [exec_compare_answers ha hb hlen]
  rcases lt_or_gt_of_ne (mt BitVec.eq_of_toNat_eq hne) with hlt | hgt
  · rw [if_pos hlt, if_pos (val_lt_of_highest_digit_lt hx hy hlt hdigits)]
  · have hval : val ys < val xs := val_lt_of_highest_digit_lt hy hx hgt fun m hm => (hdigits m hm).symm
    rw [if_neg hgt.not_gt, if_neg hval.not_gt, if_neg hval.ne']

/-! ### COMPARE as an order -/

/-- A state shows which response was delivered last. -/
theorem State.next_deliver_inj {s : State} {r q : RspWord} :
    (Host.Outcome.next (s.deliver r) : Answer) = .next (s.deliver q) ↔ r = q := by
  refine ⟨fun h => ?_, fun h => h ▸ rfl⟩
  have hresponses : s.responses ++ [r] = s.responses ++ [q] := congrArg State.responses (Host.Outcome.next.inj h)
  exact List.singleton_inj.1 (List.append_cancel_left hresponses)

theorem rspWord_order_inj {o p : Ordering} : rspWord .ok (orderResult o) = rspWord .ok (orderResult p) ↔ o = p := by
  cases o <;> cases p <;> decide

/-- The signed reading of a response turns round with the order it shows (30_encoding.md R82). -/
theorem comparisonOf_rspWord_order_swap (o : Ordering) :
    comparisonOf (rspWord .ok (orderResult o.swap)) = -comparisonOf (rspWord .ok (orderResult o)) := by
  cases o <;> rfl

section
variable {s : State} {a b : Buffer} {xs ys : List Byte}

theorem exec_compare_orders (ha : Holds s a xs) (hb : Holds s b ys) (hlen : a.len = b.len) :
    exec (.compare a b) s = .next (s.deliver (rspWord .ok (orderResult (compare (val xs) (val ys))))) := by
  rw [exec_compare_of_holds ha hb hlen, digitsCompare_eq (ha.length.trans (hlen.trans hb.length.symm))]

/-- COMPARE shows an order exactly when the two numbers stand in it (41_compare.md R110). -/
theorem exec_compare_orders_iff (ha : Holds s a xs) (hb : Holds s b ys) (hlen : a.len = b.len) (o : Ordering) :
    exec (.compare a b) s = .next (s.deliver (rspWord .ok (orderResult o))) ↔ compare (val xs) (val ys) = o := by
  rw [exec_compare_orders ha hb hlen, State.next_deliver_inj, rspWord_order_inj]

theorem exec_compare_less_iff (ha : Holds s a xs) (hb : Holds s b ys) (hlen : a.len = b.len) :
    exec (.compare a b) s = .next (s.deliver 0b0011#4) ↔ val xs < val ys :=
  (exec_compare_orders_iff ha hb hlen .lt).trans compare_lt_iff_lt

theorem exec_compare_equal_iff (ha : Holds s a xs) (hb : Holds s b ys) (hlen : a.len = b.len) :
    exec (.compare a b) s = .next (s.deliver 0b0000#4) ↔ val xs = val ys :=
  (exec_compare_orders_iff ha hb hlen .eq).trans compare_eq_iff_eq

theorem exec_compare_greater_iff (ha : Holds s a xs) (hb : Holds s b ys) (hlen : a.len = b.len) :
    exec (.compare a b) s = .next (s.deliver 0b0001#4) ↔ val ys < val xs :=
  (exec_compare_orders_iff ha hb hlen .gt).trans compare_gt_iff_gt

/-- EQUALS of buffers of one length is true exactly when their numbers are equal (44_arithmetic_laws.md R151). -/
theorem exec_equals_true_iff (ha : Holds s a xs) (hb : Holds s b ys) (hlen : a.len = b.len) :
    exec (.equals a b) s = .next (s.deliver 0b0001#4) ↔ val xs = val ys := by
  have hdigits : val xs = val ys ↔ xs = ys :=
    ⟨val_inj (ha.length.trans (hlen.trans hb.length.symm)), congrArg val⟩
  rw [exec_equals_answers ha hb hlen, State.next_deliver_inj, hdigits, ite_eq_left_iff]
  simp

theorem exec_iszero_true_iff (h : Holds s a xs) :
    exec (.iszero a) s = .next (s.deliver 0b0001#4) ↔ val xs = 0 := by
  rw [exec_iszero_answers h, State.next_deliver_inj, ite_eq_left_iff]
  simp

theorem exec_iszero_false_iff (h : Holds s a xs) :
    exec (.iszero a) s = .next (s.deliver 0b0000#4) ↔ val xs ≠ 0 := by
  rw [exec_iszero_answers h, State.next_deliver_inj, ite_eq_right_iff]
  simp

/-- The two orders of the operands give opposite answers (41_compare.md R112). -/
theorem exec_compare_antisymmetric (ha : Holds s a xs) (hb : Holds s b ys) (hlen : a.len = b.len) :
    ∃ r q, exec (.compare a b) s = .next (s.deliver r) ∧ exec (.compare b a) s = .next (s.deliver q) ∧
      comparisonOf r = -comparisonOf q := by
  refine ⟨_, _, exec_compare_orders ha hb hlen, exec_compare_orders hb ha hlen.symm, ?_⟩
  rw [← Nat.compare_swap (val ys), comparisonOf_rspWord_order_swap]

end

/-- Settles O52: each answer is a relation between the numbers, and there the laws are those of the order of ℕ. -/
theorem compareIsAStrictTotalOrder : Obligations.CompareIsAStrictTotalOrder := by
  intro s a b c xs ys zs ha hb hc hab hac
  have hless_ab := exec_compare_less_iff ha hb hab
  have hless_bc := exec_compare_less_iff hb hc (hab.symm.trans hac)
  have hless_ac := exec_compare_less_iff ha hc hac
  refine ⟨(exec_compare_equal_iff ha ha rfl).2 rfl, exec_compare_antisymmetric ha hb hab,
    fun h h' => hless_ac.2 ((hless_ab.1 h).trans (hless_bc.1 h')),
    (exec_compare_equal_iff ha hb hab).trans (exec_equals_true_iff ha hb hab).symm,
    fun hz => ⟨fun h => ?_, fun h => ?_⟩⟩
  · have hxs : val xs = 0 := (exec_iszero_true_iff ha).1 h
    exact (exec_compare_equal_iff ha hc hac).2 (hxs.trans hz.symm)
  · have hxs : val xs ≠ 0 := (exec_iszero_false_iff ha).1 h
    exact (exec_compare_greater_iff ha hc hac).2 (hz ▸ Nat.pos_of_ne_zero hxs)

end Sys2Proof.Machine
end

section
/-!
PROOFS. INCREMENT (42_increment.md): it adds the scalar modulo 256^n in place (R120), with its cases at the ends of the
range (R122 to R124), and it is an ADD of the scalar's digits (R126).
-/

namespace Sys2Proof.Machine

/-! ### The digits INCREMENT computes -/

/-- With no carry entering, the loop of INCREMENT leaves every digit (42_increment.md R122). -/
@[simp] theorem incrementDigits_zero (xs : List Byte) : incrementDigits 0 xs = xs := by
  refine val_inj (incrementDigits_length 0 xs) ?_
  rw [val_incrementDigits, Nat.add_zero, Nat.mod_eq_of_lt (val_lt xs)]

/-- A full buffer is the one that an increment by 1 turns all zero (42_increment.md R123). -/
theorem incrementDigits_one_full (n : Nat) :
    incrementDigits 1 (List.replicate n 0xFF#8) = List.replicate n 0#8 := by
  have hfull : ∀ x ∈ List.replicate n 0xFF#8, x = 0xFF#8 := fun _ => List.eq_of_mem_replicate
  have hzero : ∀ d ∈ incrementDigits 1 (List.replicate n 0xFF#8), d = 0#8 :=
    val_eq_zero_iff.1 (val_increment_one_eq_zero_iff.2 hfull)
  exact List.eq_replicate_iff.2 ⟨by rw [incrementDigits_length, List.length_replicate], hzero⟩

/-- The carry into an all-zero buffer stops in its first digit (42_increment.md R124). -/
theorem incrementDigits_one_zero (n : Nat) :
    incrementDigits 1 (List.replicate (n + 1) 0#8) = 1#8 :: List.replicate n 0#8 :=
  congrArg (1#8 :: ·) (incrementDigits_zero (List.replicate n 0#8))

/-- The loop of INCREMENT computes what the loop of ADD computes of the scalar's low digits (42_increment.md R126). -/
theorem incrementDigits_eq_addDigits (xs : List Byte) (amount : Nat) :
    incrementDigits amount xs = addDigits 0 xs (bytesOf xs.length (amount % 256 ^ xs.length)) := by
  have hlen : xs.length = (bytesOf xs.length (amount % 256 ^ xs.length)).length := (bytesOf_length _ _).symm
  refine val_inj (by rw [incrementDigits_length, addDigits_length 0 hlen]) ?_
  rw [val_incrementDigits, val_addDigits 0 hlen, val_bytesOf, Nat.mod_mod, Nat.add_zero, Nat.add_mod_mod]

/-! ### What INCREMENT stores -/

/-- A state that holds the same digits in a buffer as another, and the same bytes outside it, reads the same
everywhere. -/
theorem SameOutside.read_eq {s t : State} {x : Buffer} {xs : List Byte} (hout : SameOutside x s t)
    (hs : s.mem.readRange x.base x.len = some xs) (ht : t.mem.readRange x.base x.len = some xs) (addr : Nat) :
    t.mem.read addr = s.mem.read addr := by
  by_cases hin : inBuffer x addr = true
  · obtain ⟨hlo, hhi⟩ := inBuffer_iff.1 hin
    obtain ⟨k, rfl⟩ := Nat.exists_eq_add_of_le hlo
    obtain ⟨-, hsread⟩ := Memory.readRange_eq_some.1 hs
    obtain ⟨-, htread⟩ := Memory.readRange_eq_some.1 ht
    have hk : k < x.len := Nat.add_lt_add_iff_left.1 hhi
    rw [htread k hk, hsread k hk]
  · exact hout addr (Bool.eq_false_iff.2 hin)

/-- INCREMENT of a buffer the caller may use writes the digits of its loop there and nowhere else, and always answers OK
with RESULT 0 (42_increment.md R120, R123). -/
theorem exec_increment_stores {s : State} {a : Buffer} {xs : List Byte} (h : Holds s a xs) (amount : Nat) :
    ∃ t, exec (.increment a amount) s = .next t ∧
      t.mem.readRange a.base a.len = some (incrementDigits amount xs) ∧ SameOutside a s t ∧ Answered s t 0b0000#4 := by
  have hlen : (incrementDigits amount xs).length = a.len := (incrementDigits_length amount xs).trans h.length
  exact ⟨_, exec_increment_of_holds h amount, s.readRange_store hlen, sameOutside_store s hlen, rfl, rfl, rfl⟩

/-- Settles O24: the digits stored make the sum modulo the power. -/
theorem incrementAddsTheScalar : Obligations.IncrementAddsTheScalar := by
  intro s a amount xs h
  obtain ⟨t, hexec, hread, hout, hans⟩ := exec_increment_stores h amount
  exact ⟨t, incrementDigits amount xs, hexec, hread, h.length ▸ val_incrementDigits amount xs, hout, hans⟩

/-- Settles O40: a full buffer wraps, and the response of an increment does not tell. -/
theorem incrementOfFullBufferWrapsToZero : Obligations.IncrementOfFullBufferWrapsToZero := by
  intro s a b ys ha hb
  obtain ⟨t, hexec, hread, hout, hans⟩ := exec_increment_stores ha 1
  obtain ⟨u, hexec', -, -, hresponses, -, -⟩ := exec_increment_stores hb 1
  rw [incrementDigits_one_full] at hread
  have ⟨htresponses, _, _⟩ := hans
  exact ⟨t, u, hexec, hread, hout, hans, hexec', hresponses.trans htresponses.symm⟩

/-- Settles O41: the carry goes into the first digit and no further. -/
theorem incrementOfZeroGivesOne : Obligations.IncrementOfZeroGivesOne := by
  intro s a n _ h
  obtain ⟨t, hexec, hread, -, hans⟩ := exec_increment_stores h 1
  rw [incrementDigits_one_zero] at hread
  exact ⟨t, hexec, hread, hans⟩

/-- Settles O42: the digits stored are those that stood there. -/
theorem amountZeroAddsNothing : Obligations.AmountZeroAddsNothing := by
  intro s a xs h
  obtain ⟨t, hexec, hread, hout, hans⟩ := exec_increment_stores h 0
  rw [incrementDigits_zero] at hread
  have ⟨_, _, hbefore⟩ := h
  exact ⟨t, hexec, hout.read_eq hbefore hread, hans⟩

/-- Settles O43: both commands store the same digits into `a`. -/
theorem incrementIsAddOfTheAmountsDigits : Obligations.IncrementIsAddOfTheAmountsDigits := by
  intro s a b amount xs ha hlen ho hb
  refine ⟨_, exec_increment_of_holds ha amount, ?_⟩
  rw [exec_add_of_holds ha hb hlen ho, ← ha.length, incrementDigits_eq_addDigits]

end Sys2Proof.Machine
end

section
/-!
PROOFS. ADD and SUBTRACT (43_add_subtract.md): each stores its result modulo 256^n into its first operand and keeps the
second (R130, R135), ADD computes one sum in either order (R131), and SUBTRACT is the ADD of the complement (R138).
-/

namespace Sys2Proof.Machine

/-! ### The digits ADD and SUBTRACT compute -/

/-- The loop of ADD does not tell its operands apart (43_add_subtract.md R131). -/
theorem addDigits_comm (carry : Nat) (xs ys : List Byte) : addDigits carry xs ys = addDigits carry ys xs := by
  induction xs generalizing carry ys with
  | nil => cases ys <;> rfl
  | cons x xs ih =>
    cases ys with
    | nil => rfl
    | cons y ys => simp only [addDigits, Nat.add_comm x.toNat, ih]

/-- The loop of SUBTRACT computes what the loop of ADD computes of the complement (43_add_subtract.md R138). -/
theorem subtractDigits_eq_addDigits {xs ys zs : List Byte} (hy : xs.length = ys.length) (hz : xs.length = zs.length)
    (hval : val zs = (256 ^ xs.length - val ys) % 256 ^ xs.length) :
    subtractDigits 0 xs ys = addDigits 0 xs zs := by
  refine val_inj (by rw [subtractDigits_length 0 hy, addDigits_length 0 hz]) ?_
  rw [val_subtractDigits hy, val_addDigits 0 hz, hval, Nat.add_zero, Nat.add_mod_mod]

section
variable {xs ys : List Byte}

/-- The case of SUBTRACT in which no borrow is left at the end (43_add_subtract.md R135). -/
theorem val_subtractDigits_of_le (h : xs.length = ys.length) (hle : val ys ≤ val xs) :
    val (subtractDigits 0 xs ys) = val xs - val ys := by
  have hx := val_lt xs
  have hsum : val xs + (256 ^ xs.length - val ys) = val xs - val ys + 256 ^ xs.length := by omega
  rw [val_subtractDigits h, hsum, Nat.add_mod_right, Nat.mod_eq_of_lt ((Nat.sub_le _ _).trans_lt hx)]

/-- The case of SUBTRACT in which a borrow is left, and dropped (43_add_subtract.md R135). -/
theorem val_subtractDigits_of_lt (h : xs.length = ys.length) (hlt : val xs < val ys) :
    val (subtractDigits 0 xs ys) = val xs + 256 ^ xs.length - val ys := by
  have hy : val ys < 256 ^ xs.length := h ▸ val_lt ys
  rw [val_subtractDigits h, ← Nat.add_sub_assoc hy.le, Nat.mod_eq_of_lt (by omega)]

/-- Both cases at once: the difference as an integer, reduced (43_add_subtract.md R135). -/
theorem val_subtractDigits_int (h : xs.length = ys.length) :
    (val (subtractDigits 0 xs ys) : Int) = ((val xs : Int) - (val ys : Int)) % (256 ^ xs.length : Int) := by
  have hy : val ys ≤ 256 ^ xs.length := h ▸ (val_lt ys).le
  have hsum : (val xs : Int) + ((256 : Int) ^ xs.length - val ys) = val xs - val ys + 256 ^ xs.length := by ring
  rw [val_subtractDigits h]
  push_cast [hy]
  rw [hsum, Int.add_emod_right]

end

/-! ### What ADD and SUBTRACT store -/

/-- Partial overlap of buffers of one length is symmetric (20_memory.md R61). -/
theorem partialOverlap_comm {a b : Buffer} (hlen : a.len = b.len) : partialOverlap a b = partialOverlap b a := by
  rw [Bool.eq_iff_iff, partialOverlap_iff, partialOverlap_iff, hlen]
  exact and_congr ne_comm and_comm

/-- A second buffer of the same length, which is not the one written, reads as before (20_memory.md R61). -/
theorem SameOutside.readRange_eq {s t : State} {a b : Buffer} (hout : SameOutside a s t) (hlen : a.len = b.len)
    (ho : partialOverlap a b = false) (hne : a ≠ b) :
    t.mem.readRange b.base b.len = s.mem.readRange b.base b.len :=
  Memory.readRange_congr fun addr hlo hhi => by
    have hb : inBuffer b addr = true := inBuffer_iff.2 ⟨hlo, hhi⟩
    have ho' : partialOverlap b a = false := partialOverlap_comm hlen ▸ ho
    exact hout addr ((eq_or_outside_of_not_partialOverlap hlen.symm ho' hb).resolve_left hne.symm)

/-- What ADD and SUBTRACT leave (43_add_subtract.md R130, R135): the digits `ds` in the first operand, the digits `ys` in
the second unless the two are one buffer, every other byte as in `s`, and the response OK with RESULT 0. -/
def StoredBeside (s t : State) (a b : Buffer) (ds ys : List Byte) : Prop :=
  t.mem.readRange a.base a.len = some ds ∧ (a ≠ b → t.mem.readRange b.base b.len = some ys) ∧
    SameOutside a s t ∧ Answered s t 0b0000#4

section
variable {s : State} {a b : Buffer} {xs ys : List Byte}

theorem storedBeside_store_deliver (hb : Holds s b ys) (hlen : a.len = b.len) (ho : partialOverlap a b = false)
    {ds : List Byte} (hds : ds.length = a.len) :
    StoredBeside s ((s.store a ds).deliver 0b0000#4) a b ds ys := by
  have hout : SameOutside a s ((s.store a ds).deliver 0b0000#4) := sameOutside_store s hds
  have ⟨_, _, hread⟩ := hb
  exact ⟨s.readRange_store hds, fun hne => (hout.readRange_eq hlen ho hne).trans hread, hout, rfl, rfl, rfl⟩

/-- The operands of a command with two buffers of one length hold as many digits as each other. -/
theorem Holds.length_eq (ha : Holds s a xs) (hb : Holds s b ys) (hlen : a.len = b.len) : xs.length = ys.length :=
  ha.length.trans (hlen.trans hb.length.symm)

theorem exec_add_stores (ha : Holds s a xs) (hb : Holds s b ys) (hlen : a.len = b.len)
    (ho : partialOverlap a b = false) :
    ∃ t, exec (.add a b) s = .next t ∧ StoredBeside s t a b (addDigits 0 xs ys) ys :=
  ⟨_, exec_add_of_holds ha hb hlen ho,
    storedBeside_store_deliver hb hlen ho ((addDigits_length 0 (ha.length_eq hb hlen)).trans ha.length)⟩

theorem exec_subtract_stores (ha : Holds s a xs) (hb : Holds s b ys) (hlen : a.len = b.len)
    (ho : partialOverlap a b = false) :
    ∃ t, exec (.subtract a b) s = .next t ∧ StoredBeside s t a b (subtractDigits 0 xs ys) ys :=
  ⟨_, exec_subtract_of_holds ha hb hlen ho,
    storedBeside_store_deliver hb hlen ho ((subtractDigits_length 0 (ha.length_eq hb hlen)).trans ha.length)⟩

end

/-- Settles O25: the digits stored make the sum modulo the power. -/
theorem addStoresTheSum : Obligations.AddStoresTheSum := by
  intro s a b xs ys ha hb hlen ho
  obtain ⟨t, hexec, hread, hstored⟩ := exec_add_stores ha hb hlen ho
  have hval := val_addDigits 0 (ha.length_eq hb hlen)
  rw [Nat.add_zero, ha.length] at hval
  exact ⟨t, addDigits 0 xs ys, hexec, hread, hval, hstored⟩

/-- Settles O26: the digits stored make the difference modulo the power, with or without a last borrow. -/
theorem subtractStoresTheDifference : Obligations.SubtractStoresTheDifference := by
  intro s a b xs ys ha hb hlen ho
  obtain ⟨t, hexec, hread, hstored⟩ := exec_subtract_stores ha hb hlen ho
  have hl := ha.length_eq hb hlen
  rw [← ha.length] at hread ⊢
  exact ⟨t, subtractDigits 0 xs ys, hexec, hread, val_subtractDigits_int hl, val_subtractDigits_of_le hl,
    val_subtractDigits_of_lt hl, hstored⟩

/-- Settles O44: both commands store the same digits into `a`. -/
theorem subtractIsAddOfTheComplement : Obligations.SubtractIsAddOfTheComplement := by
  intro s a b c xs ys zs ha hb hc hab hac hob hoc hval
  rw [← ha.length] at hval
  refine ⟨_, exec_subtract_of_holds ha hb hab hob, ?_⟩
  rw [exec_add_of_holds ha hc hac hoc, subtractDigits_eq_addDigits (ha.length_eq hb hab) (ha.length_eq hc hac) hval]

/-- Settles O45: the two commands store the same digits, each beside the operand it leaves. -/
theorem addWritesItsFirstOperand : Obligations.AddWritesItsFirstOperand := by
  intro s a b xs ys ha hb hlen ho hne
  have ho' : partialOverlap b a = false := partialOverlap_comm hlen ▸ ho
  obtain ⟨t, hexec, hread, hkept, -⟩ := exec_add_stores ha hb hlen ho
  obtain ⟨u, hexec', hread', hkept', -⟩ := exec_add_stores hb ha hlen.symm ho'
  rw [addDigits_comm] at hread'
  exact ⟨t, u, addDigits 0 xs ys, hexec, hexec', hread, hkept hne, hread', hkept' hne.symm⟩

end Sys2Proof.Machine
end

section
/-!
PROOFS. The arithmetic laws (44_arithmetic_laws.md): the predicates agree with the numbers and with COMPARE (R152,
R153), operands of differing lengths (R154), what undoes what and how increments compose (R157 to R159), and how COMPARE
tells a wrap (R160).
-/

namespace Sys2Proof.Machine

/-! ### Operands of differing lengths -/

/-- Settles O28: check 5 answers, before any byte is read. -/
theorem unequalLengthsAnswered : Obligations.UnequalLengthsAnswered :=
  fun _ _ _ ha hb hn => ⟨exec_equals_of_lengths ha hb hn, exec_compare_of_lengths ha hb hn,
    exec_add_of_lengths ha hb hn, exec_subtract_of_lengths ha hb hn⟩

/-! ### The predicates -/

/-- The number is zero exactly when every byte of the buffer reads as zero (44_arithmetic_laws.md R153). -/
theorem Holds.val_eq_zero_iff_read {s : State} {a : Buffer} {xs : List Byte} (h : Holds s a xs) :
    val xs = 0 ↔ ∀ k, k < a.len → s.mem.read (a.base + k) = some 0 := by
  have hbyte (k : Nat) (hk : k < a.len) : s.mem.read (a.base + k) = xs[k]? := by rw [h.getElem?, if_pos hk]
  rw [val_eq_zero_iff, List.forall_mem_iff_getElem]
  constructor
  · intro hz k hk
    have hk' : k < xs.length := h.length ▸ hk
    rw [hbyte k hk, List.getElem?_eq_getElem hk', hz k hk']
  · intro hz k hk
    have hk' : k < a.len := h.length ▸ hk
    exact Option.some.inj ((List.getElem?_eq_getElem hk).symm.trans ((hbyte k hk').symm.trans (hz k hk')))

/-- Settles O21: the bytes and the number are zero together, and ISZERO tells whether the number is. -/
theorem iszeroAnswersWhetherEveryByteIsZero : Obligations.IszeroAnswersWhetherEveryByteIsZero := by
  intro s a xs h
  have htrue := exec_iszero_true_iff h
  have hfalse := exec_iszero_false_iff h
  exact ⟨fun hall => htrue.2 (h.val_eq_zero_iff_read.2 hall),
    fun k hk hne => hfalse.2 fun hz => hne (h.val_eq_zero_iff_read.1 hz k hk), htrue.2, hfalse.2⟩

theorem boolResult_eq_one_iff {b : Bool} : boolResult b = 0b01#2 ↔ b = true := by
  cases b <;> decide

theorem comparisonOf_rspWord_order_eq_zero_iff {o : Ordering} :
    comparisonOf (rspWord .ok (orderResult o)) = 0 ↔ o = .eq := by
  cases o <;> decide

/-- Settles O51: both say whether the two buffers hold the same digits. -/
theorem equalsAgreesWithCompare : Obligations.EqualsAgreesWithCompare := by
  intro s a b xs ys ha hb hlen
  have hl := ha.length_eq hb hlen
  refine ⟨_, _, _, _, exec_equals_of_holds ha hb hlen, rfl, exec_compare_orders ha hb hlen, rfl,
    rspStatus_rspWord _ _, rspStatus_rspWord _ _, ?_⟩
  rw [rspResult_rspWord, boolResult_eq_one_iff, digitsEqual_iff hl, comparisonOf_rspWord_order_eq_zero_iff,
    compare_eq_iff_eq]
  exact ⟨congrArg val, val_inj hl⟩

/-! ### Digits computed from computed digits -/

/-- Two carries entering one after the other are their sum entering at once (44_arithmetic_laws.md R159). -/
theorem incrementDigits_incrementDigits (x y : Nat) (xs : List Byte) :
    incrementDigits y (incrementDigits x xs) = incrementDigits (x + y) xs := by
  refine val_inj (by simp only [incrementDigits_length]) ?_
  rw [val_incrementDigits, val_incrementDigits, incrementDigits_length, val_incrementDigits, Nat.mod_add_mod,
    Nat.add_assoc]

section
variable {xs ys : List Byte}

/-- SUBTRACT undoes ADD, wrap or no wrap (44_arithmetic_laws.md R157). -/
theorem subtractDigits_addDigits (h : xs.length = ys.length) : subtractDigits 0 (addDigits 0 xs ys) ys = xs := by
  have hadd : (addDigits 0 xs ys).length = xs.length := addDigits_length 0 h
  have hy : val ys ≤ 256 ^ xs.length := h ▸ (val_lt ys).le
  refine val_inj ((subtractDigits_length 0 (hadd.trans h)).trans hadd) ?_
  rw [val_subtractDigits (hadd.trans h), hadd, val_addDigits 0 h, Nat.add_zero, Nat.mod_add_mod, Nat.add_assoc,
    Nat.add_sub_of_le hy, Nat.add_mod_right, Nat.mod_eq_of_lt (val_lt xs)]

/-- ADD undoes SUBTRACT, borrow or no borrow (44_arithmetic_laws.md R157). -/
theorem addDigits_subtractDigits (h : xs.length = ys.length) : addDigits 0 (subtractDigits 0 xs ys) ys = xs := by
  have hsub : (subtractDigits 0 xs ys).length = xs.length := subtractDigits_length 0 h
  have hy : val ys ≤ 256 ^ xs.length := h ▸ (val_lt ys).le
  refine val_inj ((addDigits_length 0 (hsub.trans h)).trans hsub) ?_
  rw [val_addDigits 0 (hsub.trans h), hsub, val_subtractDigits h, Nat.add_zero, Nat.mod_add_mod, Nat.add_assoc,
    Nat.sub_add_cancel hy, Nat.add_mod_right, Nat.mod_eq_of_lt (val_lt xs)]

end

/-! ### One store after another -/

/-- Buffers of one length that neither are the same nor partially overlap lie apart (20_memory.md R61). -/
theorem apart_of_not_partialOverlap {a c : Buffer} (hlen : a.len = c.len) (ho : partialOverlap a c = false)
    (hne : a ≠ c) : c.base + c.len ≤ a.base ∨ a.base + a.len ≤ c.base := by
  obtain ⟨base, len⟩ := a
  obtain ⟨base', len'⟩ := c
  have hno := mt partialOverlap_iff.2 (Bool.eq_false_iff.1 ho)
  rw [Ne, Buffer.mk.injEq] at hne
  simp only at hlen hno ⊢
  omega

section
variable {s : State} {a c : Buffer} {xs ys ds : List Byte}

/-- A buffer apart from the one written still holds its digits. -/
theorem Holds.store_deliver_apart (h : Holds s c ys) (hapart : c.base + c.len ≤ a.base ∨ a.base + a.len ≤ c.base)
    (hds : ds.length = a.len) (r : RspWord) : Holds ((s.store a ds).deliver r) c ys := by
  obtain ⟨hr, hv, hread⟩ := h
  exact ⟨hr, hv, (Memory.readRange_writeRange_apart s.mem ds (.inr (.inr (hds ▸ hapart)))).trans hread⟩

theorem SameOutside.symm {t : State} (h : SameOutside a s t) : SameOutside a t s :=
  fun addr hout => (h addr hout).symm

theorem SameOutside.trans {t u : State} (h : SameOutside a s t) (h' : SameOutside a t u) : SameOutside a s u :=
  fun addr hout => (h' addr hout).trans (h addr hout)

/-- The digits of one buffer and the bytes outside it fix a memory in canonical form. -/
theorem SameOutside.mem_eq {t : State} (hout : SameOutside a s t) (hs : s.mem.wf) (ht : t.mem.wf)
    (hsread : s.mem.readRange a.base a.len = some xs) (htread : t.mem.readRange a.base a.len = some xs) :
    t.mem = s.mem :=
  Memory.ext_read ht hs (hout.read_eq hsread htread)

/-- Of two stores into one buffer the second alone shows. -/
theorem State.store_store_mem (hwf : s.mem.wf) (hr : inRange a = true) (hds : ds.length = a.len)
    (hxs : xs.length = a.len) (r : RspWord) : (((s.store a ds).deliver r).store a xs).mem = (s.store a xs).mem := by
  have hwf' : ((s.store a ds).deliver r).mem.wf := State.store_wf hwf hr hds
  have hfirst : SameOutside a s ((s.store a ds).deliver r) := sameOutside_store s hds
  have hboth : SameOutside a s (((s.store a ds).deliver r).store a xs) := hfirst.trans (sameOutside_store _ hxs)
  exact ((sameOutside_store s hxs).symm.trans hboth).mem_eq (State.store_wf hwf hr hxs) (State.store_wf hwf' hr hxs)
    (s.readRange_store hxs) (State.readRange_store _ hxs)

/-- Storing the digits a buffer held restores memory, whatever was stored there meanwhile. -/
theorem State.store_back_mem (hwf : s.mem.wf) (h : Holds s a xs) (hds : ds.length = a.len) (r : RspWord) :
    (((s.store a ds).deliver r).store a xs).mem = s.mem := by
  have hxs := h.length
  obtain ⟨hr, -, hread⟩ := h
  rw [State.store_store_mem hwf hr hds hxs]
  exact (sameOutside_store s hxs).mem_eq hwf (State.store_wf hwf hr hxs) hread (s.readRange_store hxs)

end

/-! ### Round trips -/

/-- The second command takes memory back to where it was before the first, and both answer OK with RESULT 0. -/
def UndoneBy (s : State) (i j : Instr) : Prop :=
  ∃ t u, exec i s = .next t ∧ exec j t = .next u ∧ u.mem = s.mem ∧
    u.responses = s.responses ++ [0b0000#4, 0b0000#4]

section
variable {s : State} {a c : Buffer} {xs ys ds : List Byte}

/-- A command that stores `ds` into `a` is undone by one that, of `ds` in `a` and the digits of `c`, computes the old
digits of `a` and stores them there. -/
theorem undoneBy_of_inverse {i j : Instr} (hwf : s.mem.wf) (ha : Holds s a xs) (hc : Holds s c ys)
    (hlen : a.len = c.len) (ho : partialOverlap a c = false) (hne : a ≠ c) (hds : ds.length = xs.length)
    (hi : exec i s = .next ((s.store a ds).deliver 0b0000#4))
    (hj : ∀ t, Holds t a ds → Holds t c ys → exec j t = .next ((t.store a xs).deliver 0b0000#4)) :
    UndoneBy s i j := by
  have hlen_ds : ds.length = a.len := hds.trans ha.length
  have hapart := apart_of_not_partialOverlap hlen ho hne
  have hback := hj _ (ha.store_deliver hds 0b0000#4) (hc.store_deliver_apart hapart hlen_ds 0b0000#4)
  exact ⟨_, _, hi, hback, State.store_back_mem hwf ha hlen_ds _, by simp⟩

/-- A command that leaves in `a` the sum with what `c` holds is undone by SUBTRACT of `c` (44_arithmetic_laws.md R157,
R158). -/
theorem undoneBy_subtract {i : Instr} (hwf : s.mem.wf) (ha : Holds s a xs) (hc : Holds s c ys) (hlen : a.len = c.len)
    (ho : partialOverlap a c = false) (hne : a ≠ c)
    (hi : exec i s = .next ((s.store a (addDigits 0 xs ys)).deliver 0b0000#4)) : UndoneBy s i (.subtract a c) := by
  have hl := ha.length_eq hc hlen
  refine undoneBy_of_inverse hwf ha hc hlen ho hne (addDigits_length 0 hl) hi fun t ha' hc' => ?_
  rw [exec_subtract_of_holds ha' hc' hlen ho, subtractDigits_addDigits hl]

/-- A command that leaves in `a` the difference from what `c` holds is undone by ADD of `c` (44_arithmetic_laws.md
R157). -/
theorem undoneBy_add {i : Instr} (hwf : s.mem.wf) (ha : Holds s a xs) (hc : Holds s c ys) (hlen : a.len = c.len)
    (ho : partialOverlap a c = false) (hne : a ≠ c)
    (hi : exec i s = .next ((s.store a (subtractDigits 0 xs ys)).deliver 0b0000#4)) : UndoneBy s i (.add a c) := by
  have hl := ha.length_eq hc hlen
  refine undoneBy_of_inverse hwf ha hc hlen ho hne (subtractDigits_length 0 hl) hi fun t ha' hc' => ?_
  rw [exec_add_of_holds ha' hc' hlen ho, addDigits_subtractDigits hl]

end

/-- Settles O46: ADD and SUBTRACT of the same digits undo each other, and INCREMENT adds the digits of its scalar. -/
theorem addAndSubtractUndoEachOther : Obligations.AddAndSubtractUndoEachOther := by
  intro s a b c xs ys hwf ha hb hc hab hac hob hoc hne
  refine ⟨undoneBy_subtract hwf ha hc hac hoc hne (exec_add_of_holds ha hb hab hob),
    undoneBy_add hwf ha hc hac hoc hne (exec_subtract_of_holds ha hb hab hob), fun k hys => ?_⟩
  have hdigits : incrementDigits k xs = addDigits 0 xs ys := by
    rw [incrementDigits_eq_addDigits, ha.length, hys]
  exact undoneBy_subtract hwf ha hc hac hoc hne (hdigits ▸ exec_increment_of_holds ha k)

/-! ### Increments -/

/-- Two increments, one after the other, leave the memory that one increment by the sum leaves (44_arithmetic_laws.md
R159). -/
theorem exec_increment_increment {s : State} {a : Buffer} {xs : List Byte} (hwf : s.mem.wf) (h : Holds s a xs)
    (x y : Nat) :
    ∃ t u, exec (.increment a x) s = .next t ∧ exec (.increment a y) t = .next u ∧
      u.mem = (s.store a (incrementDigits (x + y) xs)).mem := by
  have hlen (amount : Nat) : (incrementDigits amount xs).length = a.len :=
    (incrementDigits_length amount xs).trans h.length
  have hsecond := exec_increment_of_holds (h.store_deliver (incrementDigits_length x xs) 0b0000#4) y
  rw [incrementDigits_incrementDigits] at hsecond
  obtain ⟨hr, -⟩ := h.placed
  exact ⟨_, _, exec_increment_of_holds h x, hsecond, State.store_store_mem hwf hr (hlen x) (hlen (x + y)) _⟩

/-- Settles O47: in either order the digits stored are those of the sum. -/
theorem incrementsCompose : Obligations.IncrementsCompose := by
  intro s a x y xs hwf h
  obtain ⟨t, u, ht, hu, humem⟩ := exec_increment_increment hwf h x y
  obtain ⟨v, w, hv, hw, hwmem⟩ := exec_increment_increment hwf h y x
  rw [Nat.add_comm y x] at hwmem
  exact ⟨t, u, v, w, _, ht, hu, hv, hw, exec_increment_of_holds h (x + y), humem, hwmem⟩

/-- Repeated increments by one amount add each of them, one response apiece (44_arithmetic_laws.md R159). -/
theorem execTimes_increment {s : State} {a : Buffer} {xs : List Byte} (h : Holds s a xs) (amount k : Nat) :
    ∃ t, execTimes (.increment a amount) k s = .next t ∧
      t.mem.readRange a.base a.len = some (incrementDigits (k * amount) xs) ∧ SameOutside a s t ∧
      t.responses = s.responses ++ List.replicate k 0b0000#4 := by
  induction k generalizing s xs with
  | zero =>
    have ⟨_, _, hread⟩ := h
    exact ⟨s, rfl, by rwa [Nat.zero_mul, incrementDigits_zero], fun _ _ => rfl, by simp⟩
  | succ k ih =>
    have hlen : (incrementDigits amount xs).length = xs.length := incrementDigits_length amount xs
    obtain ⟨t, hexec, hread, hout, hresponses⟩ := ih (h.store_deliver hlen 0b0000#4)
    rw [incrementDigits_incrementDigits, Nat.add_comm, ← Nat.succ_mul] at hread
    have hfirst : SameOutside a s ((s.store a (incrementDigits amount xs)).deliver 0b0000#4) :=
      sameOutside_store s (hlen.trans h.length)
    refine ⟨t, ?_, hread, hfirst.trans hout, ?_⟩
    · rw [execTimes, exec_increment_of_holds h, andThen_next, hexec]
    · rw [hresponses, State.deliver_responses, State.store_responses, List.replicate_succ, List.append_assoc,
        List.singleton_append]

/-- An increment leaves its digits exactly when the scalar is a multiple of 256^n (44_arithmetic_laws.md R159). -/
theorem incrementDigits_eq_self_iff {k : Nat} {xs : List Byte} :
    incrementDigits k xs = xs ↔ 256 ^ xs.length ∣ k := by
  have hval : incrementDigits k xs = xs ↔ val (incrementDigits k xs) = val xs :=
    ⟨congrArg val, val_inj (incrementDigits_length k xs)⟩
  have hmod : val xs = val xs % 256 ^ xs.length := (Nat.mod_eq_of_lt (val_lt xs)).symm
  rw [hval, val_incrementDigits, ← Nat.add_modEq_left_iff (a := val xs), Nat.ModEq, ← hmod]

/-- Settles O48: the increments add up to `k`, which changes no digit exactly when 256^n divides it. -/
theorem incrementByOneHasPeriod256ToTheLength : Obligations.IncrementByOneHasPeriod256ToTheLength := by
  intro s a xs k h
  obtain ⟨t, hexec, hread, hout, hresponses⟩ := execTimes_increment h 1 k
  rw [Nat.mul_one] at hread
  exact ⟨t, incrementDigits k xs, hexec, hread, h.length ▸ val_incrementDigits k xs,
    h.length ▸ incrementDigits_eq_self_iff, hout, hresponses⟩

/-! ### Telling a wrap -/

/-- A sum of two numbers below the modulus, the second not 0, comes out below the first where it wraps and above it
where it does not. -/
theorem compare_add_mod {M x v : Nat} (hx : x < M) (hpos : 0 < v) (hv : v < M) :
    compare ((x + v) % M) x = if M ≤ x + v then .lt else .gt := by
  split_ifs with hwrap
  · rw [compare_lt_iff_lt, Nat.mod_eq_sub_mod hwrap, Nat.mod_eq_of_lt (by omega)]
    omega
  · rw [compare_gt_iff_gt, Nat.mod_eq_of_lt (by omega)]
    omega

section
variable {s : State} {a c : Buffer} {xs ds : List Byte}

/-- After a command that added `v` to `a` modulo 256^n, COMPARE with a copy of the old value tells a wrap from none
(44_arithmetic_laws.md R160). -/
theorem exec_compare_tells_wrap {v : Nat} (ha : Holds s a xs) (hc : Holds s c xs) (hlen : a.len = c.len)
    (hapart : c.base + c.len ≤ a.base ∨ a.base + a.len ≤ c.base) (hds : ds.length = xs.length)
    (hval : val ds = (val xs + v) % 256 ^ xs.length) (hpos : 0 < v) (hv : v < 256 ^ xs.length) (r : RspWord) :
    exec (.compare a c) ((s.store a ds).deliver r) =
      .next (((s.store a ds).deliver r).deliver (if 256 ^ a.len ≤ val xs + v then 0b0011#4 else 0b0001#4)) := by
  rw [exec_compare_orders (ha.store_deliver hds r) (hc.store_deliver_apart hapart (hds.trans ha.length) r) hlen, hval,
    compare_add_mod (val_lt xs) hpos hv, ha.length]
  split_ifs <;> rfl

end

/-- Settles O49: ADD adds `val ys`, SUBTRACT the complement of it, and INCREMENT its scalar. -/
theorem compareTellsAWrap : Obligations.CompareTellsAWrap := by
  intro s a b c xs ys amount ha hb hc hab hac hob hapart
  have hl := ha.length_eq hb hab
  have hy : val ys < 256 ^ xs.length := hl ▸ val_lt ys
  refine ⟨fun hne => ⟨⟨_, exec_add_of_holds ha hb hab hob, ?_⟩, _, exec_subtract_of_holds ha hb hab hob, ?_⟩,
    fun hpos hlt => ⟨_, exec_increment_of_holds ha amount, ?_⟩⟩
  · exact exec_compare_tells_wrap ha hc hac hapart (addDigits_length 0 hl) (val_addDigits 0 hl)
      (Nat.pos_of_ne_zero hne) hy _
  · have hwrap : 256 ^ a.len ≤ val xs + (256 ^ xs.length - val ys) ↔ val ys ≤ val xs := by
      rw [← ha.length]
      omega
    rw [exec_compare_tells_wrap ha hc hac hapart (subtractDigits_length 0 hl) (val_subtractDigits hl)
      (Nat.sub_pos_of_lt hy) (by omega)]
    simp only [hwrap]
  · exact exec_compare_tells_wrap ha hc hac hapart (incrementDigits_length amount xs) (val_incrementDigits amount xs)
      hpos (ha.length ▸ hlt) _

end Sys2Proof.Machine
end

section
/-!
PROOFS. The statements about exceptions and about what happens between commands (60_exceptions.md): the checks decide
in their order (R174, R176), a command that fails one writes nothing (R171, R177), every command whose caller kept its
duties ends (R182), and other agents have the memory to themselves between two commands (R186, R187).
-/

namespace Sys2Proof.Machine

/-! ### Between commands -/

theorem step_of_no_inputs {s : State} (h : s.inputs = []) : step s = .next s := by
  simp only [step, stepInputs, h]

/-- Settles O10. -/
theorem idleStepChangesNothing : Obligations.IdleStepChangesNothing :=
  fun _ => step_of_no_inputs

theorem applyAccess_read_of_valid {s : State} {addr : BitVec 32} (h : s.validAddr addr.toNat = true) :
    applyAccess (.read addr) s = .next s := if_pos h

theorem applyAccess_write_of_valid {s : State} {addr : BitVec 32} (h : s.validAddr addr.toNat = true) (b : Byte) :
    applyAccess (.write addr b) s = .next (s.withMem (s.mem.write addr.toNat b)) := if_pos h

/-- Settles O18: the access is the event handled, and memory reads as written at its one address. -/
theorem agentsAccessMemoryBetweenCommands : Obligations.AgentsAccessMemoryBetweenCommands := by
  intro s addr b rest hv
  refine ⟨fun hin => ?_, fun hin => ?_⟩
  · exact (step_of_inputs hin).trans (applyAccess_read_of_valid hv)
  · have hwrite := applyAccess_write_of_valid (s := { s with inputs := rest }) hv b
    exact ⟨_, (step_of_inputs hin).trans hwrite, rfl, rfl, rfl, Memory.read_write_same s.mem addr.toNat b,
      fun _ hne => Memory.read_write_other s.mem b hne⟩

/-! ### Every ready command ends -/

/-- Where the caller kept its duties no byte named is unwritten and none is outside ValidAddr (20_memory.md R44;
70_reset_and_hazards.md R206). -/
theorem Ready.named_byte {s : State} {i : Instr} {x : Buffer} {addr : Nat} (h : Ready s i) (hx : x ∈ buffersOf i)
    (ha : inBuffer x addr = true) : s.mem.read addr ≠ none ∧ s.validAddr addr = true := by
  obtain ⟨-, hvalid, hread⟩ := h x hx
  obtain ⟨hlo, hhi⟩ := inBuffer_iff.1 ha
  refine ⟨fun hnone => ?_, (s.validRange_iff x.base x.len).1 hvalid addr hlo hhi⟩
  simp [Memory.readRange_eq_none.2 ⟨addr, hlo, hhi, hnone⟩] at hread

/-- Settles O36: a fault or a refusal would need a byte that the caller's duties exclude. -/
theorem everyReadyCommandCompletes : Obligations.EveryReadyCommandCompletes := by
  intro s i hready
  obtain ⟨hfault, hrefused⟩ := stopsOnlyOn_exec i s
  cases hexec : exec i s with
  | next t =>
    obtain ⟨r, hr⟩ := exec_answered hexec
    exact ⟨t, r, rfl, hr⟩
  | fault f =>
    obtain ⟨-, x, hx, addr, ha, hnone⟩ := hfault f hexec
    exact absurd hnone (hready.named_byte hx ha).1
  | refused r =>
    obtain ⟨-, x, hx, addr, ha, hout⟩ := hrefused r hexec
    exact absurd (hready.named_byte hx ha).2 (Bool.eq_false_iff.1 hout)

/-! ### How a command ends

Every instruction is its checks 3 and 4 and ValidAddr, then its checks 5 and 6, then an operation whose only end is
STATUS OK (60_exceptions.md R176). -/

/-- Where the answer is a next state, the command ended with one response and STATUS OK. -/
def EndsOk (s : State) (o : Answer) : Prop :=
  ∀ t, o = .next t → ∃ r, t.responses = s.responses ++ [r] ∧ rspStatus r = 0b00#2

section
variable {s : State}

theorem endsOk_complete (result : BitVec 2) : EndsOk s (complete result s) := by
  rintro _ ⟨⟩
  exact ⟨_, rfl, rspStatus_rspWord .ok result⟩

theorem endsOk_complete_store (result : BitVec 2) (x : Buffer) (ds : List Byte) :
    EndsOk s (complete result (s.store x ds)) := by
  rintro _ ⟨⟩
  exact ⟨_, rfl, rspStatus_rspWord .ok result⟩

theorem EndsOk.ite {c : Prop} [Decidable c] {yes no : Answer} (hy : EndsOk s yes) (hn : EndsOk s no) :
    EndsOk s (if c then yes else no) := by
  split
  · exact hy
  · exact hn

theorem EndsOk.withBuffer {x : Buffer} {use : List Byte → Answer} (h : ∀ xs, EndsOk s (use xs)) :
    EndsOk s (withBuffer x s use) := by
  intro t ht
  obtain ⟨xs, -, ht⟩ := withBuffer_next ht
  exact h xs t ht

theorem EndsOk.withBuffers {a b : Buffer} {use : List Byte → List Byte → Answer} (h : ∀ xs ys, EndsOk s (use xs ys)) :
    EndsOk s (withBuffers a b s use) :=
  EndsOk.withBuffer fun xs => EndsOk.withBuffer (h xs)

end

/-- Checks 5 and 6 of 60_exceptions.md R176, as far as the instruction makes them. -/
def lateChecks : Instr → List (Option Status)
  | .equals _ _ | .iszero _ | .increment _ _ => []
  | .compare a b => [checkLengths a b]
  | .add a b | .subtract a b => [checkLengths a b, checkOverlap a b]

/-- The order of the checks, for every instruction at once (60_exceptions.md R176). -/
theorem exec_eq_checked (i : Instr) : ∃ run, (∀ s, EndsOk s (run s)) ∧
    ∀ s, exec i s = located (buffersOf i) s fun s => checked (lateChecks i) s run := by
  cases i with
  | equals a b =>
    exact ⟨_, fun _ => EndsOk.ite (c := a.len = b.len) (EndsOk.withBuffers fun _ _ => endsOk_complete _)
      (endsOk_complete _), fun _ => rfl⟩
  | iszero a => exact ⟨_, fun _ => EndsOk.withBuffer fun _ => endsOk_complete _, fun _ => rfl⟩
  | compare a b => exact ⟨_, fun _ => EndsOk.withBuffers fun _ _ => endsOk_complete _, fun _ => rfl⟩
  | increment a amount => exact ⟨_, fun _ => EndsOk.withBuffer fun _ => endsOk_complete_store _ _ _, fun _ => rfl⟩
  | add a b => exact ⟨_, fun _ => EndsOk.withBuffers fun _ _ => endsOk_complete_store _ _ _, fun _ => rfl⟩
  | subtract a b => exact ⟨_, fun _ => EndsOk.withBuffers fun _ _ => endsOk_complete_store _ _ _, fun _ => rfl⟩

/-- A command that has a next state ended with OK, or with BadCommand at check 3 or 4, or as check 5 or 6 says; in the
last two cases it only delivered its response (60_exceptions.md R177). -/
theorem exec_ends {i : Instr} {s t : State} (h : exec i s = .next t) :
    (∃ r, t.responses = s.responses ++ [r] ∧ rspStatus r = 0b00#2) ∨
      ∃ st, (st = .badCommand ∨ some st ∈ lateChecks i) ∧ t = s.deliver (rspWord st voidResult) := by
  obtain ⟨run, hrun, hexec⟩ := exec_eq_checked i
  rw [hexec] at h
  rcases located_next h with ⟨-, h⟩ | h
  · rcases checked_next h with ⟨-, h⟩ | ⟨st, hst, h⟩
    · exact .inl (hrun s t h)
    · cases h
      exact .inr ⟨st, .inr hst, rfl⟩
  · cases h
    exact .inr ⟨.badCommand, .inl rfl, rfl⟩

/-- Check 5 is made by COMPARE, ADD and SUBTRACT alone and asks for the lengths alone (60_exceptions.md R171). -/
theorem lengthMismatch_mem_lateChecks {i : Instr} (h : some .lengthMismatch ∈ lateChecks i) :
    ∃ a b, a.len ≠ b.len ∧ (i = .compare a b ∨ i = .add a b ∨ i = .subtract a b) := by
  have lengths {a b : Buffer} (hc : some .lengthMismatch ∈ [checkLengths a b, checkOverlap a b]) : a.len ≠ b.len := by
    intro hlen
    rw [checkLengths_of_eq hlen] at hc
    cases ho : partialOverlap a b <;> simp [checkOverlap, ho] at hc
  cases i with
  | equals a b => cases h
  | iszero a => cases h
  | increment a amount => cases h
  | compare a b => exact ⟨a, b, lengths (List.mem_append_left [checkOverlap a b] h), .inl rfl⟩
  | add a b => exact ⟨a, b, lengths h, .inr (.inl rfl)⟩
  | subtract a b => exact ⟨a, b, lengths h, .inr (.inr rfl)⟩

/-- A response says which check it comes from. -/
theorem rspWord_void_eq_lengthMismatch {st : Status} (h : rspWord st voidResult = 0b0100#4) : st = .lengthMismatch := by
  cases st
  · exact absurd h (by decide)
  · rfl
  · exact absurd h (by decide)

/-- Settles O29: the response is neither OK nor BadCommand, so it comes from check 5. -/
theorem lengthMismatchOnlyFromUnequalLengths : Obligations.LengthMismatchOnlyFromUnequalLengths := by
  intro s t i h hr
  rcases exec_ends h with ⟨r, hr', hok⟩ | ⟨st, hst, rfl⟩
  · obtain rfl : r = 0b0100#4 := by simpa [hr'] using hr
    exact absurd hok (by decide)
  · obtain rfl : st = .lengthMismatch := rspWord_void_eq_lengthMismatch (by simpa using hr)
    exact ⟨rfl, lengthMismatch_mem_lateChecks (hst.resolve_left (by decide))⟩

/-- Settles O34: an illegal descriptor and a failed check deliver their response and nothing else. -/
theorem failedCommandsWriteNothing : Obligations.FailedCommandsWriteNothing := by
  intro s t cmd rest r hin h hr herror
  rw [step_of_inputs hin] at h
  rcases presentCommand_next h with h | ⟨i, -, -, h⟩
  · cases h
    rfl
  · rw [applyAccesses_nil, andThen_next_right] at h
    rcases exec_ends h with ⟨r', hr', hok⟩ | ⟨st, -, rfl⟩
    · obtain rfl : r' = r := by simpa [hr'] using hr
      exact absurd hok herror
    · rfl

/-! ### The first check that fails -/

/-- The response by which the first check that fails ends the command; none where every check passes. -/
def firstError : List (Option Status) → Option RspWord
  | [] => none
  | some st :: _ => some (rspWord st voidResult)
  | none :: cs => firstError cs

@[simp] theorem firstError_nil : firstError [] = none := rfl

theorem checked_of_firstError_some {cs : List (Option Status)} {r : RspWord} (h : firstError cs = some r) (s : State)
    (run : State → Answer) : checked cs s run = .next (s.deliver r) := by
  induction cs with
  | nil => cases h
  | cons c cs ih =>
    cases c with
    | none => exact ih h
    | some st =>
      cases h
      rfl

theorem checked_of_firstError_none {cs : List (Option Status)} (h : firstError cs = none) (s : State)
    (run : State → Answer) : checked cs s run = run s := by
  induction cs with
  | nil => rfl
  | cons c cs ih =>
    cases c with
    | none => exact ih h
    | some st => cases h

/-- Check 5 alone, as COMPARE makes it (60_exceptions.md R171). -/
theorem firstError_lengths (a b : Buffer) :
    firstError [checkLengths a b] = if a.len ≠ b.len then some 0b0100#4 else none := by
  by_cases hlen : a.len = b.len
  · rw [checkLengths_of_eq hlen, if_neg (not_not.2 hlen)]
    rfl
  · rw [checkLengths_of_ne hlen, if_pos hlen]
    rfl

/-- Checks 5 and 6, as ADD and SUBTRACT make them (60_exceptions.md R171, R174). -/
theorem firstError_lengths_overlap (a b : Buffer) :
    firstError [checkLengths a b, checkOverlap a b] =
      if a.len ≠ b.len then some 0b0100#4
      else if a.base ≠ b.base ∧ a.base < b.base + a.len ∧ b.base < a.base + a.len then some 0b1000#4 else none := by
  simp only [← partialOverlap_iff]
  by_cases hlen : a.len = b.len
  · rw [checkLengths_of_eq hlen, if_neg (not_not.2 hlen)]
    cases ho : partialOverlap a b with
    | true =>
      rw [checkOverlap_of ho]
      rfl
    | false =>
      rw [checkOverlap_of_not ho]
      rfl
  · rw [checkLengths_of_ne hlen, if_pos hlen]
    rfl

/-! ### What the bits of a descriptor say of the command

`malformed`, `namesValidBytes` and `mismatchOf` are written from the bits alone. Of a command that decodes they say
whether it fails check 3 or 4, whether its buffers are in ValidAddr, and how checks 5 and 6 end it. -/

/-- The codes of the six rows are the values 1 to 6 (30_encoding.md R72). -/
theorem exists_opcodeValue_iff {code : BitVec 8} :
    (∃ op, code = opcodeValue op) ↔ ¬(code.toNat = 0 ∨ 6 < code.toNat) := by
  constructor
  · rintro ⟨op, rfl⟩
    cases op <;> decide
  · intro h
    obtain h | h | h | h | h | h : code.toNat = 1 ∨ code.toNat = 2 ∨ code.toNat = 3 ∨ code.toNat = 4 ∨
      code.toNat = 5 ∨ code.toNat = 6 := by omega
    · exact ⟨.equals, BitVec.eq_of_toNat_eq h⟩
    · exact ⟨.iszero, BitVec.eq_of_toNat_eq h⟩
    · exact ⟨.compare, BitVec.eq_of_toNat_eq h⟩
    · exact ⟨.increment, BitVec.eq_of_toNat_eq h⟩
    · exact ⟨.add, BitVec.eq_of_toNat_eq h⟩
    · exact ⟨.subtract, BitVec.eq_of_toNat_eq h⟩

/-- The bits statements speak of are the fields of 30_encoding.md R71. -/
theorem cmdField_fieldsOf (cmd : Descriptor) :
    cmdField cmd 0 8 = (fieldsOf cmd).opcode.toNat ∧ cmdField cmd 8 24 = (fieldsOf cmd).rsv0.toNat ∧
      cmdField cmd 32 32 = (bufferA (fieldsOf cmd)).base ∧ cmdField cmd 64 32 = (bufferA (fieldsOf cmd)).len ∧
      cmdField cmd 96 32 = (bufferB (fieldsOf cmd)).base ∧ cmdField cmd 128 32 = (bufferB (fieldsOf cmd)).len ∧
      cmdField cmd 160 63 = (fieldsOf cmd).amount.toNat ∧ cmdField cmd 223 1 = (fieldsOf cmd).rsv1.toNat := by
  simp only [cmdField_eq]
  exact ⟨rfl, rfl, rfl, rfl, rfl, rfl, rfl, rfl⟩

theorem malformed_of_unknown_opcode {cmd : Descriptor} (h : ∀ op, (fieldsOf cmd).opcode ≠ opcodeValue op) :
    malformed cmd = true := by
  have hcode := not_not.1 (mt exists_opcodeValue_iff.2 (not_exists.2 h))
  simp only [malformed, cmdField_fieldsOf, if_pos hcode]

/-- For the opcode of a row, checks 1 to 4 ask whether the other fields are legal for the row and whether its buffers are
in range (60_exceptions.md R174). -/
theorem malformed_of_opcode {cmd : Descriptor} {op : Opcode} (hop : (fieldsOf cmd).opcode = opcodeValue op) :
    malformed cmd = true ↔
      ¬(fieldsOf cmd).LegalFor op ∨ ∃ x ∈ buffersOf (operandsOf op (fieldsOf cmd)), inRange x = false := by
  cases op <;>
    simp [malformed, namesTwoBuffers, cmdField_fieldsOf, hop, opcodeValue, Fields.LegalFor, unusedZero, buffersOf,
      operandsOf, inRange, Config.addrSpace, BitVec.toNat_eq, bufferB, -not_and, not_and_or, and_assoc, or_assoc,
      or_left_comm]

theorem malformed_of_illegal {cmd : Descriptor} (h : ∀ i, decode cmd ≠ .ok i) : malformed cmd = true := by
  by_cases hop : ∃ op, (fieldsOf cmd).opcode = opcodeValue op
  · obtain ⟨op, hop⟩ := hop
    exact (malformed_of_opcode hop).2 (.inl fun hlegal => h _ (decode_of_legalFor hlegal))
  · exact malformed_of_unknown_opcode (not_exists.1 hop)

section
variable {cmd : Descriptor} {i : Instr}

theorem malformed_of_decode (h : decode cmd = .ok i) : malformed cmd = true ↔ ∃ x ∈ buffersOf i, inRange x = false := by
  obtain ⟨op, hlegal, rfl⟩ := decodeFields_eq_ok_iff.1 h
  have ⟨hop, _⟩ := hlegal
  exact (malformed_of_opcode hop).trans (or_iff_right (not_not.2 hlegal))

theorem namesValidBytes_of_decode (h : decode cmd = .ok i) (s : State) :
    namesValidBytes s cmd = s.validBuffers (buffersOf i) := by
  obtain ⟨op, ⟨hop, -⟩, rfl⟩ := decodeFields_eq_ok_iff.1 h
  cases op <;> simp [namesValidBytes, namesTwoBuffers, cmdField_fieldsOf, hop, opcodeValue, operandsOf, buffersOf]

/-- Checks 5 and 6 of a command that passed checks 1 to 4 (60_exceptions.md R176). -/
theorem mismatchOf_of_decode (h : decode cmd = .ok i) : mismatchOf cmd = firstError (lateChecks i) := by
  obtain ⟨op, ⟨hop, -⟩, rfl⟩ := decodeFields_eq_ok_iff.1 h
  cases op <;>
    simp [mismatchOf, cmdField_fieldsOf, hop, opcodeValue, operandsOf, lateChecks, firstError_lengths,
      firstError_lengths_overlap]

/-- EQUALS is the row of opcode 1 (30_encoding.md R72). -/
theorem equals_of_opcode_one (h : decode cmd = .ok i) (hone : cmdField cmd 0 8 = 1) :
    i = .equals ⟨cmdField cmd 32 32, cmdField cmd 64 32⟩ ⟨cmdField cmd 96 32, cmdField cmd 128 32⟩ := by
  obtain ⟨op, ⟨hop, -⟩, rfl⟩ := decodeFields_eq_ok_iff.1 h
  simp only [cmdField_fieldsOf, hop] at hone ⊢
  cases op with
  | equals => rfl
  | iszero | compare | increment | add | subtract => exact absurd hone (by decide)

end

/-! ### The checks in their order -/

/-- With no other agent at work a legal command presented is its instruction run. -/
theorem presentCommand_alone {cmd : Descriptor} {i : Instr} (h : decode cmd = .ok i) (s : State) :
    presentCommand cmd [] s = exec i s :=
  (presentCommand_of_decode s h rfl).trans (andThen_next_right _)

/-- One of the checks 1 to 4 fails: BAD_COMMAND with no memory access (60_exceptions.md R174). -/
theorem presentCommand_of_malformed {cmd : Descriptor} (h : malformed cmd = true) (s : State) :
    presentCommand cmd [] s = .next (s.deliver 0b1000#4) := by
  by_cases hd : ∃ i, decode cmd = .ok i
  · obtain ⟨i, hd⟩ := hd
    obtain ⟨x, hx, hr⟩ := (malformed_of_decode hd).1 h
    obtain ⟨run, -, hexec⟩ := exec_eq_checked i
    exact (presentCommand_alone hd s).trans ((hexec s).trans (located_of_past_top hx hr _))
  · exact presentCommand_of_illegal [] s (not_exists.1 hd)

/-- A command that passes checks 1 to 4 decodes, and its buffers are in range. -/
theorem decode_of_not_malformed {cmd : Descriptor} (h : malformed cmd = false) :
    ∃ i, decode cmd = .ok i ∧ ∀ x ∈ buffersOf i, inRange x = true := by
  have hpass := Bool.eq_false_iff.1 h
  obtain ⟨i, hd⟩ : ∃ i, decode cmd = .ok i := by
    by_contra hn
    exact hpass (malformed_of_illegal (not_exists.1 hn))
  refine ⟨i, hd, fun x hx => ?_⟩
  by_contra hr
  exact hpass ((malformed_of_decode hd).2 ⟨x, hx, Bool.eq_false_iff.2 hr⟩)

/-- ValidAddr is asked next (20_memory.md R44; notes/assumptions/4.md). -/
theorem exec_of_not_validBuffers {i : Instr} {s : State} (hr : ∀ x ∈ buffersOf i, inRange x = true)
    (hv : s.validBuffers (buffersOf i) = false) : exec i s = .refused .outsideValidAddr := by
  obtain ⟨x, hx, hout⟩ : ∃ x ∈ buffersOf i, s.validRange x.base x.len = false := by
    simpa [State.validBuffers] using hv
  obtain ⟨run, -, hexec⟩ := exec_eq_checked i
  exact (hexec s).trans (located_of_outside hr hx hout _)

section
variable {i : Instr} {s : State}

/-- Then checks 5 and 6, before any byte is read (60_exceptions.md R176). -/
theorem exec_of_firstError (hp : ∀ x ∈ buffersOf i, Placed s x) {r : RspWord}
    (h : firstError (lateChecks i) = some r) : exec i s = .next (s.deliver r) := by
  obtain ⟨run, -, hexec⟩ := exec_eq_checked i
  rw [hexec, located_of_placed hp, checked_of_firstError_some h]

/-- With every check passed the command ends with OK, if it ends. -/
theorem exec_endsOk (hp : ∀ x ∈ buffersOf i, Placed s x) (h : firstError (lateChecks i) = none) :
    EndsOk s (exec i s) := by
  obtain ⟨run, hrun, hexec⟩ := exec_eq_checked i
  rw [hexec, located_of_placed hp, checked_of_firstError_none h]
  exact hrun s

end

/-- Settles O27: each clause is the outcome at one place in the order of the checks. -/
theorem checksDecideInOrder : Obligations.ChecksDecideInOrder := by
  intro s cmd rest hin
  have hstep : step s = presentCommand cmd [] { s with inputs := rest } := step_of_inputs hin
  rw [hstep]
  refine ⟨fun hbad => presentCommand_of_malformed hbad _, fun hpass hout => ?_, fun hpass hvalid => ?_⟩
  · obtain ⟨i, hd, hr⟩ := decode_of_not_malformed hpass
    rw [presentCommand_alone hd]
    exact exec_of_not_validBuffers hr ((namesValidBytes_of_decode hd s).symm.trans hout)
  · obtain ⟨i, hd, hr⟩ := decode_of_not_malformed hpass
    have hv := State.validBuffers_iff.1 ((namesValidBytes_of_decode hd s).symm.trans hvalid)
    have hp : ∀ x ∈ buffersOf i, Placed { s with inputs := rest } x := fun x hx => ⟨hr x hx, hv x hx⟩
    rw [presentCommand_alone hd, mismatchOf_of_decode hd]
    refine ⟨fun r hfirst => exec_of_firstError hp hfirst, fun _ hone hlen => ?_, exec_endsOk hp⟩
    obtain rfl := equals_of_opcode_one hd hone
    exact exec_equals_of_lengths (hp _ (by simp [buffersOf])) (hp _ (by simp [buffersOf])) hlen

end Sys2Proof.Machine
end

section
/-!
PROOFS. The statements about reset and hazards (70_reset_and_hazards.md): reset of the idle engine leaves memory alone
(R201), reset in mid-command delivers nothing and gives up the destination alone (R202), and an operation that reads a
byte nobody has written faults (R206).
-/

namespace Sys2Proof.Machine

/-! ### Reset -/

theorem handleEvent_reset (s : State) : handleEvent .reset s = .next s := rfl

theorem handleEvent_resetDuring (cmd : Descriptor) (s : State) :
    handleEvent (.resetDuring cmd) s = abandonCommand cmd s := rfl

/-- Settles O16: only the event is taken off the inputs. -/
theorem resetKeepsBufferMemory : Obligations.ResetKeepsBufferMemory :=
  fun _ _ hin => (step_of_inputs hin).trans (handleEvent_reset _)

/-- A legal command abandoned in mid-command leaves its destinations unwritten and nothing else changed
(70_reset_and_hazards.md R202; notes/assumptions/9.md). -/
theorem abandonCommand_next_of_decode {cmd : Descriptor} {i : Instr} {s t : State} (hd : decode cmd = .ok i)
    (h : abandonCommand cmd s = .next t) :
    t = s.withMem ((destinationsOf i).foldl (fun m x => m.forgetRange x.base x.len) s.mem) := by
  simp only [abandonCommand, hd] at h
  split_ifs at h
  cases h
  rfl

theorem sameOutside_forgetRange (s : State) (x : Buffer) :
    SameOutside x s (s.withMem (s.mem.forgetRange x.base x.len)) := by
  intro addr hout
  have hnot : ¬(x.base ≤ addr ∧ addr < x.base + x.len) := fun h => by simp [inBuffer_iff.2 h] at hout
  exact (Memory.read_forgetRange _ _ _ _).trans (if_neg hnot)

theorem Memory.read_forgetRange_of_inBuffer (m : Memory) {x : Buffer} {addr : Nat} (h : inBuffer x addr = true) :
    (m.forgetRange x.base x.len).read addr = none :=
  (Memory.read_forgetRange _ _ _ _).trans (if_pos (inBuffer_iff.1 h))

/-- Settles O17: an abandoned command delivers nothing, and memory forgets its destinations, of which it has none or
one. -/
theorem resetDuringCommandForgetsTheDestination : Obligations.ResetDuringCommandForgetsTheDestination := by
  intro s t cmd rest hin hstep
  have habandon : abandonCommand cmd { s with inputs := rest } = .next t := by
    rw [← handleEvent_resetDuring, ← step_of_inputs hin, hstep]
  obtain ⟨hresponses, hinputs, hholes⟩ := abandonCommand_unanswered habandon
  refine ⟨hresponses, hinputs, hholes, fun hreader addr => ?_, fun i x hd hdest => ?_⟩
  · rcases abandonCommand_next habandon with rfl | ⟨i, hd, rfl⟩
    · rfl
    · rw [hreader i hd]
      rfl
  · have ht := abandonCommand_next_of_decode hd habandon
    rw [hdest] at ht
    subst ht
    exact ⟨sameOutside_forgetRange _ x, fun _ haddr => Memory.read_forgetRange_of_inBuffer _ haddr⟩

/-! ### Bytes nobody has written -/

theorem Memory.readRange_eq_none_of_inBuffer {m : Memory} {x : Buffer} {addr : Nat} (h : inBuffer x addr = true)
    (hnone : m.read addr = none) : m.readRange x.base x.len = none := by
  obtain ⟨hlo, hhi⟩ := inBuffer_iff.1 h
  exact Memory.readRange_eq_none.2 ⟨addr, hlo, hhi, hnone⟩

section
variable {s : State} {a b : Buffer}

theorem withBuffer_of_unwritten (h : s.mem.readRange a.base a.len = none) (use : List Byte → Answer) :
    withBuffer a s use = .fault .unwrittenByte := by
  simp only [withBuffer, h]

theorem withBuffers_of_unwritten
    (h : s.mem.readRange a.base a.len = none ∨ s.mem.readRange b.base b.len = none)
    (use : List Byte → List Byte → Answer) : withBuffers a b s use = .fault .unwrittenByte := by
  rcases withBuffers_cases a b s use with ⟨xs, ys, hxs, hys, -⟩ | ⟨-, he⟩
  · simp [hxs, hys] at h
  · exact he

theorem exec_iszero_of_unwritten (ha : Placed s a) (h : s.mem.readRange a.base a.len = none) :
    exec (.iszero a) s = .fault .unwrittenByte :=
  (located_one ha _).trans (withBuffer_of_unwritten h _)

theorem exec_increment_of_unwritten (ha : Placed s a) (h : s.mem.readRange a.base a.len = none) (amount : Nat) :
    exec (.increment a amount) s = .fault .unwrittenByte :=
  (located_one ha _).trans (withBuffer_of_unwritten h _)

theorem exec_equals_of_unwritten (ha : Placed s a) (hb : Placed s b) (hlen : a.len = b.len)
    (h : s.mem.readRange a.base a.len = none ∨ s.mem.readRange b.base b.len = none) :
    exec (.equals a b) s = .fault .unwrittenByte :=
  (located_two ha hb _).trans ((if_pos hlen).trans (withBuffers_of_unwritten h _))

/-- A command on two buffers whose checks all pass reads both, so it faults where one holds an unwritten byte
(70_reset_and_hazards.md R206; notes/assumptions/5.md, 6.md). -/
theorem located_checked_of_unwritten (ha : Placed s a) (hb : Placed s b) {cs : List (Option Status)}
    (hc : firstError cs = none) (h : s.mem.readRange a.base a.len = none ∨ s.mem.readRange b.base b.len = none)
    (use : State → List Byte → List Byte → Answer) :
    located [a, b] s (fun s => checked cs s fun s => withBuffers a b s (use s)) = .fault .unwrittenByte := by
  rw [located_two ha hb, checked_of_firstError_none hc]
  exact withBuffers_of_unwritten h _

theorem exec_compare_of_unwritten (ha : Placed s a) (hb : Placed s b) (hlen : a.len = b.len)
    (h : s.mem.readRange a.base a.len = none ∨ s.mem.readRange b.base b.len = none) :
    exec (.compare a b) s = .fault .unwrittenByte :=
  located_checked_of_unwritten ha hb (by rw [checkLengths_of_eq hlen]; rfl) h _

theorem exec_add_of_unwritten (ha : Placed s a) (hb : Placed s b) (hlen : a.len = b.len)
    (ho : partialOverlap a b = false)
    (h : s.mem.readRange a.base a.len = none ∨ s.mem.readRange b.base b.len = none) :
    exec (.add a b) s = .fault .unwrittenByte :=
  located_checked_of_unwritten ha hb (by rw [checkLengths_of_eq hlen, checkOverlap_of_not ho]; rfl) h _

theorem exec_subtract_of_unwritten (ha : Placed s a) (hb : Placed s b) (hlen : a.len = b.len)
    (ho : partialOverlap a b = false)
    (h : s.mem.readRange a.base a.len = none ∨ s.mem.readRange b.base b.len = none) :
    exec (.subtract a b) s = .fault .unwrittenByte :=
  located_checked_of_unwritten ha hb (by rw [checkLengths_of_eq hlen, checkOverlap_of_not ho]; rfl) h _

end

/-- Settles O38: `a` cannot be read, whether it is the first or the second buffer of the command. -/
theorem unwrittenBytesFault : Obligations.UnwrittenBytesFault := by
  intro s a amount addr ha haddr hnone
  have hun := Memory.readRange_eq_none_of_inBuffer haddr hnone
  refine ⟨exec_iszero_of_unwritten ha hun, exec_increment_of_unwritten ha hun amount, fun b hb hlen => ?_⟩
  refine ⟨exec_equals_of_unwritten ha hb hlen (.inl hun), exec_equals_of_unwritten hb ha hlen.symm (.inr hun),
    exec_compare_of_unwritten ha hb hlen (.inl hun), exec_compare_of_unwritten hb ha hlen.symm (.inr hun),
    fun hab => ?_⟩
  have hba : partialOverlap b a = false := (partialOverlap_comm hlen).symm.trans hab
  exact ⟨exec_add_of_unwritten ha hb hlen hab (.inl hun), exec_add_of_unwritten hb ha hlen.symm hba (.inr hun),
    exec_subtract_of_unwritten ha hb hlen hab (.inl hun), exec_subtract_of_unwritten hb ha hlen.symm hba (.inr hun)⟩

end Sys2Proof.Machine
end
